-- ==== Sys2Proof/Word.lean ====
section
/-! DEFINITION. The machine's words: bytes, 16-bit words, 12-bit address fields, and the names of registers and keys. -/

namespace Sys2Proof

/-- One memory byte, one general register, one timer (10_state.md R15, R23; 20_memory.md R29). -/
abbrev Byte := BitVec 8

/-- A 16-bit word: I, PC, a stack entry, an opcode (10_state.md R18, R19, R21; 30_encoding.md R48). -/
abbrev Word := BitVec 16

/-- The 12-bit address field `nnn` of an opcode (30_encoding.md R49). -/
abbrev Addr := BitVec 12

/-- The index of a general register V0..VF, which a 4-bit field always names (10_state.md R15). -/
abbrev RegIx := Fin 16

/-- The 4-bit row count `n` of DXYN (30_encoding.md R51). -/
abbrev Rows := Fin 16

end Sys2Proof
end

