-- ==== Sys2Proof/Syntax.lean ====
section
/-! DEFINITION. The 35 instructions of 30_encoding.md R53, one constructor per row of the opcode map, in its order. -/

namespace Sys2Proof

/-- An instruction with its decoded fields (30_encoding.md R53). The word it has in the opcode map stands beside each. -/
inductive Instr where
  /-- 0NNN, R74. -/
  | sys (nnn : Addr)
  /-- 00E0, R96. -/
  | cls
  /-- 00EE, R68. -/
  | ret
  /-- 1NNN, R66. -/
  | jp (nnn : Addr)
  /-- 2NNN, R67. -/
  | call (nnn : Addr)
  /-- 3XNN, R69. -/
  | seImm (x : RegIx) (nn : Byte)
  /-- 4XNN, R70. -/
  | sneImm (x : RegIx) (nn : Byte)
  /-- 5XY0, R71. -/
  | seReg (x y : RegIx)
  /-- 6XNN, R77. -/
  | ldImm (x : RegIx) (nn : Byte)
  /-- 7XNN, R78. -/
  | addImm (x : RegIx) (nn : Byte)
  /-- 8XY0, R79. -/
  | ldReg (x y : RegIx)
  /-- 8XY1, R80. -/
  | orReg (x y : RegIx)
  /-- 8XY2, R81. -/
  | andReg (x y : RegIx)
  /-- 8XY3, R82. -/
  | xorReg (x y : RegIx)
  /-- 8XY4, R83. -/
  | addReg (x y : RegIx)
  /-- 8XY5, R84. -/
  | subReg (x y : RegIx)
  /-- 8XY6, R86. -/
  | shrReg (x y : RegIx)
  /-- 8XY7, R85. -/
  | subnReg (x y : RegIx)
  /-- 8XYE, R87. -/
  | shlReg (x y : RegIx)
  /-- 9XY0, R72. -/
  | sneReg (x y : RegIx)
  /-- ANNN, R89. -/
  | ldI (nnn : Addr)
  /-- BNNN, R73. -/
  | jpV0 (nnn : Addr)
  /-- CXNN, R88. -/
  | rnd (x : RegIx) (nn : Byte)
  /-- DXYN, R97. -/
  | drw (x y : RegIx) (n : Rows)
  /-- EX9E, R98. -/
  | skp (x : RegIx)
  /-- EXA1, R99. -/
  | sknp (x : RegIx)
  /-- FX07, R102. -/
  | ldVxDt (x : RegIx)
  /-- FX0A, R100. -/
  | ldVxK (x : RegIx)
  /-- FX15, R103. -/
  | ldDtVx (x : RegIx)
  /-- FX18, R104. -/
  | ldStVx (x : RegIx)
  /-- FX1E, R90. -/
  | addI (x : RegIx)
  /-- FX29, R91. -/
  | ldF (x : RegIx)
  /-- FX33, R92. -/
  | ldB (x : RegIx)
  /-- FX55, R93. -/
  | ldMemVx (x : RegIx)
  /-- FX65, R94. -/
  | ldVxMem (x : RegIx)
deriving DecidableEq, Repr

/-- What decoding a word gives (30_encoding.md R52): one of the 35 instructions, or `Unknown`, by name, with the word. -/
inductive Decoded where
  | instruction (i : Instr)
  | unknown (op : Word)
deriving DecidableEq, Repr

end Sys2Proof
end

