-- ==== Sys2Proof/Decode.lean ====
section
/-! DEFINITION. Decoding a 16-bit word, total (30_encoding.md R52), and the encoder written from the same opcode map (R53). -/

namespace Sys2Proof

/-! ## Fields of an opcode word (R49) -/

/-- `a = op[15:12]`. -/
def opMajor (op : Word) : Fin 16 := (op.extractLsb' 12 4).toFin

/-- `x = op[11:8]`. -/
def opX (op : Word) : RegIx := (op.extractLsb' 8 4).toFin

/-- `y = op[7:4]`. -/
def opY (op : Word) : RegIx := (op.extractLsb' 4 4).toFin

/-- `n = op[3:0]`. -/
def opN (op : Word) : Fin 16 := (op.extractLsb' 0 4).toFin

/-- `nn = op[7:0]`. -/
def opNN (op : Word) : Byte := op.extractLsb' 0 8

/-- `nnn = op[11:0]`. -/
def opNNN (op : Word) : Addr := op.extractLsb' 0 12

/-! ## Decode -/

/-- The parameter `LOOSE_5_9_LOW_NIBBLE` (D16): whether 5XYn and 9XYn decode whatever n is. The spec's value is false: the
match is exact (R54; log entry 6). -/
@[simp] def loose59LowNibble : Bool := false

/-- Group 0: the whole word, CLS and RET before SYS. -/
def decodeGroup0 (op : Word) : Decoded :=
  if op = 0x00E0#16 then .instruction .cls
  else if op = 0x00EE#16 then .instruction .ret
  else .instruction (.sys (opNNN op))

/-- Group 8: the low nibble selects the operation. -/
def decodeGroup8 (op : Word) : Decoded :=
  match opN op with
  | 0x0 => .instruction (.ldReg (opX op) (opY op))
  | 0x1 => .instruction (.orReg (opX op) (opY op))
  | 0x2 => .instruction (.andReg (opX op) (opY op))
  | 0x3 => .instruction (.xorReg (opX op) (opY op))
  | 0x4 => .instruction (.addReg (opX op) (opY op))
  | 0x5 => .instruction (.subReg (opX op) (opY op))
  | 0x6 => .instruction (.shrReg (opX op) (opY op))
  | 0x7 => .instruction (.subnReg (opX op) (opY op))
  | 0xE => .instruction (.shlReg (opX op) (opY op))
  | _ => .unknown op

/-- Group E: the low byte selects the operation. -/
def decodeGroupE (op : Word) : Decoded :=
  if opNN op = 0x9E#8 then .instruction (.skp (opX op))
  else if opNN op = 0xA1#8 then .instruction (.sknp (opX op))
  else .unknown op

/-- Group F: the low byte selects the operation. -/
def decodeGroupF (op : Word) : Decoded :=
  if opNN op = 0x07#8 then .instruction (.ldVxDt (opX op))
  else if opNN op = 0x0A#8 then .instruction (.ldVxK (opX op))
  else if opNN op = 0x15#8 then .instruction (.ldDtVx (opX op))
  else if opNN op = 0x18#8 then .instruction (.ldStVx (opX op))
  else if opNN op = 0x1E#8 then .instruction (.addI (opX op))
  else if opNN op = 0x29#8 then .instruction (.ldF (opX op))
  else if opNN op = 0x33#8 then .instruction (.ldB (opX op))
  else if opNN op = 0x55#8 then .instruction (.ldMemVx (opX op))
  else if opNN op = 0x65#8 then .instruction (.ldVxMem (opX op))
  else .unknown op

/-- Decoding dispatches on the top four bits, then on the finer sub-fields (R52). -/
def decode (op : Word) : Decoded :=
  match opMajor op with
  | 0x0 => decodeGroup0 op
  | 0x1 => .instruction (.jp (opNNN op))
  | 0x2 => .instruction (.call (opNNN op))
  | 0x3 => .instruction (.seImm (opX op) (opNN op))
  | 0x4 => .instruction (.sneImm (opX op) (opNN op))
  | 0x5 => if opN op = 0 ∨ loose59LowNibble then .instruction (.seReg (opX op) (opY op)) else .unknown op
  | 0x6 => .instruction (.ldImm (opX op) (opNN op))
  | 0x7 => .instruction (.addImm (opX op) (opNN op))
  | 0x8 => decodeGroup8 op
  | 0x9 => if opN op = 0 ∨ loose59LowNibble then .instruction (.sneReg (opX op) (opY op)) else .unknown op
  | 0xA => .instruction (.ldI (opNNN op))
  | 0xB => .instruction (.jpV0 (opNNN op))
  | 0xC => .instruction (.rnd (opX op) (opNN op))
  | 0xD => .instruction (.drw (opX op) (opY op) (opN op))
  | 0xE => decodeGroupE op
  | _ => decodeGroupF op   -- 0xF, the one value left

/-- The big-endian word of two consecutive bytes, the one at the lower address high (20_memory.md R38). -/
def wordOfBytes (hi lo : Byte) : Word := hi ++ lo

/-- The byte of a word at the lower address. -/
def highByte (w : Word) : Byte := w.extractLsb' 8 8

/-- The byte of a word at the higher address. -/
def lowByte (w : Word) : Byte := w.extractLsb' 0 8

/-- What the decoder reads from an instruction whose bits are `w`, numbered as the opcode table numbers them: the low `nbits`
bits of `w` are the word, stored high byte first and decoded from those two bytes (log entry 16). -/
def decodeTableWord (nbits w : Nat) : Option Instr :=
  let op : Word := BitVec.ofNat 16 (w % 2 ^ nbits)
  match decode (wordOfBytes (highByte op) (lowByte op)) with
  | .instruction i => some i
  | .unknown _ => none

/-! ## Encode -/

/-- A field of four bits. -/
def nibble (k : Fin 16) : BitVec 4 := BitVec.ofFin k

/-- Format A: `aaaa nnnn nnnn nnnn` (R50). -/
def formatA (a : Fin 16) (nnn : Addr) : Word := nibble a ++ nnn

/-- Format XNN: `aaaa xxxx nnnn nnnn`; format X is the same with a fixed low byte (R50). -/
def formatXNN (a : Fin 16) (x : RegIx) (nn : Byte) : Word := nibble a ++ nibble x ++ nn

/-- Format XYN: `aaaa xxxx yyyy nnnn`; format XY is the same with a fixed low nibble (R50). -/
def formatXYN (a : Fin 16) (x y : RegIx) (n : Fin 16) : Word := nibble a ++ nibble x ++ nibble y ++ nibble n

/-- The word of an instruction (R53). -/
def encode : Instr → Word
  | .sys nnn => formatA 0x0 nnn
  | .cls => 0x00E0#16
  | .ret => 0x00EE#16
  | .jp nnn => formatA 0x1 nnn
  | .call nnn => formatA 0x2 nnn
  | .seImm x nn => formatXNN 0x3 x nn
  | .sneImm x nn => formatXNN 0x4 x nn
  | .seReg x y => formatXYN 0x5 x y 0x0
  | .ldImm x nn => formatXNN 0x6 x nn
  | .addImm x nn => formatXNN 0x7 x nn
  | .ldReg x y => formatXYN 0x8 x y 0x0
  | .orReg x y => formatXYN 0x8 x y 0x1
  | .andReg x y => formatXYN 0x8 x y 0x2
  | .xorReg x y => formatXYN 0x8 x y 0x3
  | .addReg x y => formatXYN 0x8 x y 0x4
  | .subReg x y => formatXYN 0x8 x y 0x5
  | .shrReg x y => formatXYN 0x8 x y 0x6
  | .subnReg x y => formatXYN 0x8 x y 0x7
  | .shlReg x y => formatXYN 0x8 x y 0xE
  | .sneReg x y => formatXYN 0x9 x y 0x0
  | .ldI nnn => formatA 0xA nnn
  | .jpV0 nnn => formatA 0xB nnn
  | .rnd x nn => formatXNN 0xC x nn
  | .drw x y n => formatXYN 0xD x y n
  | .skp x => formatXNN 0xE x 0x9E#8
  | .sknp x => formatXNN 0xE x 0xA1#8
  | .ldVxDt x => formatXNN 0xF x 0x07#8
  | .ldVxK x => formatXNN 0xF x 0x0A#8
  | .ldDtVx x => formatXNN 0xF x 0x15#8
  | .ldStVx x => formatXNN 0xF x 0x18#8
  | .addI x => formatXNN 0xF x 0x1E#8
  | .ldF x => formatXNN 0xF x 0x29#8
  | .ldB x => formatXNN 0xF x 0x33#8
  | .ldMemVx x => formatXNN 0xF x 0x55#8
  | .ldVxMem x => formatXNN 0xF x 0x65#8

end Sys2Proof
end

