-- ==== Sys2Proof/Config.lean ====
section
/-! DEFINITION. The implementation parameters of 00_scope.md R6 as named constants, and the one free value, RAND. -/

namespace Sys2Proof.Config

/-- `MEM_SIZE`: the capacity of memory in bytes (R6, R29). -/
@[simp] abbrev memSize : Nat := 4096

/-- `NREGS`: V0..VF (R6, R15). -/
@[simp] abbrev nRegs : Nat := 16

/-- `REG_W`: bits of a general register, unsigned (R6, R15). `Byte` has this width; the law `widths_agree` of
Laws/State.lean holds every type of Word.lean to the constants here. -/
@[simp] abbrev regWidth : Nat := 8

/-- `I_W`: bits of I (R6, R18). -/
@[simp] abbrev iWidth : Nat := 16

/-- `PC_W`: bits of PC (R6, R19). -/
@[simp] abbrev pcWidth : Nat := 16

/-- `STACK_DEPTH`: return addresses the call stack holds (R6, R21). -/
@[simp] abbrev stackDepth : Nat := 16

/-- `STK_W`: bits of a stack entry (R6, R21). -/
@[simp] abbrev stkWidth : Nat := 16

/-- `SP` range: the least value of SP, the empty stack (R6, R20). -/
@[simp] abbrev spMin : Nat := 0

/-- `SP` range: the greatest value of SP, the full stack (R6, R20). -/
@[simp] abbrev spMax : Nat := stackDepth

/-- `FB_W`: columns of the framebuffer (R6, R22). -/
@[simp] abbrev fbWidth : Nat := 64

/-- `FB_H`: rows of the framebuffer (R6, R22). -/
@[simp] abbrev fbHeight : Nat := 32

/-- `NKEYS` (R6, R24). -/
@[simp] abbrev nKeys : Nat := 16

/-- `TIMER_W`: bits of each of the two timers (R6, R23). -/
@[simp] abbrev timerWidth : Nat := 8

/-- `TICK_HZ`: nominal, the host's; no rule of the machine reads it (R6, R115). -/
@[simp] abbrev tickHz : Nat := 60

/-- `PROG_BASE`: where LOAD places a program, and the entry point (R6, R123, R124). -/
@[simp] abbrev progBase : Nat := 0x200

/-- `FONT_BASE` (R6, R35). -/
@[simp] abbrev fontBase : Nat := 0x000

/-- `NGLYPHS` (R6, R35). -/
@[simp] abbrev nGlyphs : Nat := 16

/-- `GLYPH_BYTES` (R6, R35). -/
@[simp] abbrev glyphBytes : Nat := 5

/-- `MAX_PROG`: the longest program LOAD accepts, 3584 bytes (R6, R124). -/
@[simp] abbrev maxProg : Nat := memSize - progBase

/-- `INSTR_BYTES` (R6, R48). -/
@[simp] abbrev instrBytes : Nat := 2

/-- `NINSTR` (R6, R53). -/
@[simp] abbrev nInstr : Nat := 35

/-- `SPRITE_W`: pixels in a sprite row (R6, R97). -/
@[simp] abbrev spriteWidth : Nat := 8

/-- `SPRITE_H`: the least number of rows of a sprite (R6, R97). -/
@[simp] abbrev spriteMinHeight : Nat := 0

/-- `SPRITE_H`: the greatest number of rows of a sprite, which the N nibble holds (R6, R97). -/
@[simp] abbrev spriteMaxHeight : Nat := 15

/-- `RAND`: the byte the `k`-th draw gives. A FREE VALUE (R6, R88; D24; log entry 2): it has no body, so a claim about it
holds for every value it may take. -/
opaque rand : Nat → Byte

end Sys2Proof.Config
end

