-- ==== Sys2Proof/Machine/Font.lean ====
section
/-! DEFINITION. The font table FONT (20_memory.md R35) and what a byte of memory holds after reset (R35, R36). -/

namespace Sys2Proof.Machine

/-- Glyphs 0 to 7, five rows each (R35; the byte values are general knowledge, D11, log entry 9). -/
def fontLow : List Byte :=
  [0xF0, 0x90, 0x90, 0x90, 0xF0] ++ [0x20, 0x60, 0x20, 0x20, 0x70] ++
  [0xF0, 0x10, 0xF0, 0x80, 0xF0] ++ [0xF0, 0x10, 0xF0, 0x10, 0xF0] ++
  [0x90, 0x90, 0xF0, 0x10, 0x10] ++ [0xF0, 0x80, 0xF0, 0x10, 0xF0] ++
  [0xF0, 0x80, 0xF0, 0x90, 0xF0] ++ [0xF0, 0x10, 0x20, 0x40, 0x40]

/-- Glyphs 8 to F, five rows each (R35). -/
def fontHigh : List Byte :=
  [0xF0, 0x90, 0xF0, 0x90, 0xF0] ++ [0xF0, 0x90, 0xF0, 0x10, 0xF0] ++
  [0xF0, 0x90, 0xF0, 0x90, 0x90] ++ [0xE0, 0x90, 0xE0, 0x90, 0xE0] ++
  [0xF0, 0x80, 0x80, 0x80, 0xF0] ++ [0xE0, 0x90, 0x90, 0x90, 0xE0] ++
  [0xF0, 0x80, 0xF0, 0x80, 0xF0] ++ [0xF0, 0x80, 0xF0, 0x80, 0x80]

/-- FONT: the 80 bytes at 0x000..0x04F (R35). -/
def font : List Byte := fontLow ++ fontHigh

/-- The byte an address of memory holds after construction and RESET: the font from `FONT_BASE`, zero elsewhere (R35, R36).
It is what an address the memory list does not name reads as. -/
def resetByte (a : Nat) : Byte := if Config.fontBase ≤ a then font.getD (a - Config.fontBase) 0 else 0

end Sys2Proof.Machine
end

