-- ==== Sys2Proof/Machine/State.lean ====
section
/-! DEFINITION. The state of the CORE (10_state.md R13) as plain data, the machine's faults and conditions, and the state
after reset. -/

namespace Sys2Proof.Machine

/-- The machine faults (60_exceptions.md R107). A step TAKES a fault: it answers a next state whose RUN is `faulted f` (R108,
log entry 3), so no step ends in `Host.Outcome.fault`; the names stand in RUN and in STEP's result. -/
inductive Fault where
  /-- Raised by CALL (2NNN) at SP = 16. Safe: the state R108 gives is reached and nothing else is written. -/
  | stackOverflow
  /-- Raised by RET (00EE) at SP = 0. Safe: the state R108 gives is reached and nothing else is written. -/
  | stackUnderflow
deriving DecidableEq, Repr

/-- Why a step has no meaning. -/
inductive Refusal where
  /-- Raised by an arm of `exec` whose instruction has no meaning yet; no arm of this model is one. Safe: the step stops. -/
  | notModelled (mnemonic : String)
deriving DecidableEq, Repr

/-- The kind of an out-of-range access, with what was addressed (60_exceptions.md R105). -/
inductive AccessKind where
  /-- The effective address, at or above 4096. -/
  | memory (a : Nat)
  /-- A register index at or above 16; PEEK_REG only (R106). -/
  | register (i : Nat)
  /-- A coordinate outside 64 x 32; PEEK_PIXEL only (R106). -/
  | pixel (px py : Nat)
  /-- A key number at or above 16. -/
  | key (k : Nat)
deriving DecidableEq, Repr

/-- A diagnostic condition (60_exceptions.md R105): it never stops the machine and changes no architectural state. -/
inductive Condition where
  /-- A word that decodes to `Unknown`, with its address. -/
  | unknownOpcode (pc op : Word)
  /-- An access out of range. -/
  | outOfRangeAccess (kind : AccessKind)
deriving DecidableEq, Repr

/-- The engine's run state RUN (10_state.md R26). -/
inductive RunState where
  | running
  | awaitingKey (x : RegIx)
  | faulted (f : Fault)
deriving DecidableEq, Repr

/-- Memory as (address, byte) pairs: the bytes that differ from the reset contents, by rising address (log entry 10). -/
abbrev Memory := List Host.Cell

/-- The framebuffer: `fb[px][py]`, 64 columns of 32 pixels (10_state.md R22). -/
abbrev Framebuffer := Vector (Vector Bool 32) 64

/-- The complete state (10_state.md R13), under the spec's names; the last two fields are the model's own. -/
structure State where
  /-- MEM (R29). -/
  mem : Memory
  /-- V0..VF (R15). -/
  v : Vector Byte 16
  /-- I (R18). -/
  i : Word
  /-- PC (R19). -/
  pc : Word
  /-- SP, 0..16 (R20). -/
  sp : Fin 17
  /-- STK[0..15] (R21). -/
  stk : Vector Word 16
  /-- FB (R22). -/
  fb : Framebuffer
  /-- DT (R23). -/
  dt : Byte
  /-- ST (R23). -/
  st : Byte
  /-- KEY[0..15] (R24). -/
  key : Vector Bool 16
  /-- RDRAW (R25). -/
  rdraw : Bool
  /-- RUN (R26). -/
  run : RunState
  /-- The condition list of the latest STEP: its output, not machine state (R13, R58; log entry 1). -/
  conds : List Condition
  /-- How many RAND bytes have been drawn (log entry 2). -/
  draws : Nat
deriving DecidableEq, Repr

/-- A clear screen (R22). -/
def Framebuffer.clear : Framebuffer := Vector.replicate 64 (Vector.replicate 32 false)

/-- The machine right after construction or RESET (70_reset_and_hazards.md R122; 10_state.md section 6). Memory lists nothing:
it holds its reset contents, the font and zeros (20_memory.md R35, R36). -/
def State.reset : State where
  mem := []
  v := Vector.replicate 16 0
  i := 0
  pc := BitVec.ofNat 16 Config.progBase
  sp := 0
  stk := Vector.replicate 16 0
  fb := Framebuffer.clear
  dt := 0
  st := 0
  key := Vector.replicate 16 false
  rdraw := false
  run := .running
  conds := []
  draws := 0

end Sys2Proof.Machine
end

