-- ==== Sys2Proof/Machine/Memory.lean ====
section
/-! DEFINITION. The memory list: its canonical form, reading and writing one in-range byte (20_memory.md R29; log entry 10). -/

namespace Sys2Proof.Machine

/-- The byte at `a`: the listed one, or the reset contents. -/
def Memory.read : Memory → Nat → Byte
  | [], a => resetByte a
  | (k, b) :: rest, a => if a = k then b else Memory.read rest a

/-- Writing byte `b` at `a`, keeping the list rising and free of reset contents. -/
def Memory.write : Memory → Nat → Byte → Memory
  | [], a, b => if b = resetByte a then [] else [(a, b)]
  | (k, c) :: rest, a, b =>
    if k < a then (k, c) :: Memory.write rest a b
    else if a = k then (if b = resetByte a then rest else (a, b) :: rest)
    else (if b = resetByte a then (k, c) :: rest else (a, b) :: (k, c) :: rest)

/-- The addresses from `lo` on: every entry is at least `lo`, below the capacity, above the entry before it, and differs from
the reset contents. -/
def Memory.wfFrom (lo : Nat) : Memory → Bool
  | [] => true
  | (k, b) :: rest => decide (lo ≤ k) && decide (k < Config.memSize) && (b != resetByte k) && Memory.wfFrom (k + 1) rest

/-- The canonical form: addresses strictly rising and below 4096, no entry equal to the reset contents. -/
def Memory.wf (m : Memory) : Bool := Memory.wfFrom 0 m

/-- Writing consecutive bytes from `a` up (LOAD's loop, R124). -/
def Memory.writeBytes (m : Memory) (a : Nat) : List Byte → Memory
  | [] => m
  | b :: rest => Memory.writeBytes (m.write a b) (a + 1) rest

end Sys2Proof.Machine
end

