-- ==== Sys2Proof/Machine/Quirks.lean ====
section
/-! DEFINITION. The interpreter variants that spec/92_eei_decisions.md names as parameters, one constant each, at the value
the spec's rules fix (log entry 6). `LOOSE_5_9_LOW_NIBBLE` stands in Decode.lean. -/

namespace Sys2Proof.Machine

/-- `FLAG_WRITTEN_LAST` (D6): whether an ALU instruction writes VF after its result. R17: VF first. -/
@[simp] def flagWrittenLast : Bool := false

/-- `MASK_I_12` (D10): whether an access through I is taken modulo 4096. R30: no wrap. -/
@[simp] def maskI12 : Bool := false

/-- `SYS_SIGNALS_UNKNOWN` (D17): whether SYS signals UnknownOpcode. R74: it does not. -/
@[simp] def sysSignalsUnknown : Bool := false

/-- `BNNN_USES_VX` (D19): whether jump-with-offset adds Vx, x the top nibble of nnn. R73: it adds V0. -/
@[simp] def bnnnUsesVx : Bool := false

/-- `LOGIC_RESETS_VF` (D21): whether OR, AND and XOR clear VF. R80, R81, R82: they do not. -/
@[simp] def logicResetsVf : Bool := false

/-- `SHIFT_READS_VY` (D23): whether the shifts read Vy. R86, R87: they read Vx. -/
@[simp] def shiftReadsVy : Bool := false

/-- `BULK_INCREMENTS_I` (D28): whether FX55 and FX65 leave I past the last byte. R93, R94: I is unchanged. -/
@[simp] def bulkIncrementsI : Bool := false

/-- The readings of FX1E's overflow flag (D25), in bits of the sum that is still in range: `some 12` is past the 4096-byte
space, `some 16` the carry out of I, `none` no flag. `ADDI_FLAG`, R90: past the 4096-byte space. -/
@[simp] def addIFlagBits : Option Nat := some 12

end Sys2Proof.Machine
end

