-- ==== Sys2Proof/Machine/Ops.lean ====
section
/-! DEFINITION. The named operations over the state that the meanings share: registers, pixels, keys, memory accesses with
their conditions, the program counter, the call stack, taking a fault and returning from a call. -/

namespace Sys2Proof.Machine

/-! ## Registers (10_state.md R15, R16) -/

/-- VF, the flag register (R16). -/
def vf : RegIx := 15

/-- `V[x]`. -/
def State.reg (s : State) (x : RegIx) : Byte := s.v[x]

/-- `V[x] <- b`. -/
def State.setReg (s : State) (x : RegIx) (b : Byte) : State := { s with v := s.v.set x b }

/-- The flag and the result of an ALU instruction: VF is written with the flag, then `V[x]` with the result (R17, D6). -/
def writeFlagAndResult (flagLast : Bool) (x : RegIx) (flag result : Byte) (s : State) : State :=
  if flagLast then (s.setReg x result).setReg vf flag else (s.setReg vf flag).setReg x result

/-- The result of a bitwise instruction, with VF cleared first only in the variant of D21. -/
def writeLogicResult (resetsVf : Bool) (x : RegIx) (result : Byte) (s : State) : State :=
  if resetsVf then (s.setReg vf 0).setReg x result else s.setReg x result

/-! ## Conditions (60_exceptions.md R105; 00_scope.md R11) -/

/-- `signal c`: the condition joins the operation's list; nothing else changes. -/
def State.signal (s : State) (c : Condition) : State := { s with conds := s.conds ++ [c] }

/-! ## Memory (20_memory.md R31, R32) -/

/-- The value a read of `a` gives: the byte, or 0 out of range. -/
def State.readByte (s : State) (a : Nat) : Byte := if a < Config.memSize then s.mem.read a else 0

/-- The condition an access to `a` signals, if it is out of range. -/
def checkAddress (a : Nat) (s : State) : State :=
  if a < Config.memSize then s else s.signal (.outOfRangeAccess (.memory a))

/-- `MemRead(a, 1)` (R31). -/
def memRead (a : Nat) (s : State) : Byte × State := (s.readByte a, checkAddress a s)

/-- `MemWrite(a, 1, b)` (R32). -/
def memWrite (a : Nat) (b : Byte) (s : State) : State :=
  if a < Config.memSize then { s with mem := s.mem.write a b } else s.signal (.outOfRangeAccess (.memory a))

/-! ## Framebuffer (10_state.md R22; 44_display.md R95) -/

/-- `FB[px][py]`. -/
def State.pixel (s : State) (px : Fin 64) (py : Fin 32) : Bool := s.fb[px][py]

/-- `FB[px][py] <- b`. -/
def State.setPixel (s : State) (px : Fin 64) (py : Fin 32) (b : Bool) : State :=
  { s with fb := s.fb.set px (s.fb[px].set py b) }

/-! ## Keypad (10_state.md R24; 45_input.md R98) -/

/-- Whether the key numbered `k` reads as pressed: a key at or above 16 never is (D30). -/
def State.keyPressed (s : State) (k : Nat) : Bool := s.key[k]?.getD false

/-- The condition naming key `k` signals, if there is no such key. -/
def checkKey (k : Nat) (s : State) : State :=
  if k < Config.nKeys then s else s.signal (.outOfRangeAccess (.key k))

/-! ## Program counter (40_engine_cycle.md R61, R62) -/

/-- The generic advance past the 2-byte instruction, modulo 65536. -/
def advance (s : State) : State := { s with pc := s.pc + BitVec.ofNat 16 Config.instrBytes }

/-- `skip_if(c)`: past the next instruction as well when `c` holds (R62). -/
def skipIf (c : Bool) (s : State) : State := if c then advance (advance s) else advance s

/-- `PC <- target`: a redirect, with no generic advance. -/
def jumpTo (target : Word) (s : State) : State := { s with pc := target }

/-! ## Call stack and faults (10_state.md R20, R21; 60_exceptions.md R107, R108) -/

/-- `STK[SP] <- w; SP <- SP + 1`, while the stack is not full. -/
def push (w : Word) (s : State) (h : s.sp.val < Config.stackDepth) : State :=
  { s with stk := s.stk.set s.sp.val w h, sp := ⟨s.sp.val + 1, Nat.succ_lt_succ h⟩ }

/-- `STK[SP - 1]`, while the stack is not empty. -/
def topOfStack (s : State) (h : 0 < s.sp.val) : Word := s.stk[s.sp.val - 1]'(by omega)

/-- `SP <- SP - 1`, the slot kept (R68). -/
def pop (s : State) : State := { s with sp := ⟨s.sp.val - 1, by omega⟩ }

/-- Fault entry, precise (R108): RUN becomes `Faulted(f)` and nothing else changes; PC still names the faulting instruction,
nothing is saved and there is no handler. The one exception entry of the machine. -/
def takeFault (f : Fault) (s : State) : State := { s with run := .faulted f }

/-- The return from a call (R68): to the instruction after the popped CALL. -/
def returnFromCall (s : State) (h : 0 < s.sp.val) : State :=
  jumpTo (topOfStack s h + BitVec.ofNat 16 Config.instrBytes) (pop s)

/-! ## The random input (00_scope.md R6, R11) -/

/-- `draw RAND`: the next free byte, and the state in which it is drawn (log entry 2). -/
def drawRandom (s : State) : Byte × State := (Config.rand s.draws, { s with draws := s.draws + 1 })

end Sys2Proof.Machine
end

