-- ==== Sys2Proof/Machine/Flags.lean ====
section
/-! DEFINITION. The values the flag register VF takes (10_state.md R16), each computed on exact naturals. -/

namespace Sys2Proof.Machine

/-- A flag as a byte: 1 or 0. -/
def flagByte (b : Bool) : Byte := if b then 1 else 0

/-- The carry of 8XY4: the exact sum exceeds 255 (42_register_alu.md R83). -/
def carryFlag (a b : Byte) : Byte := flagByte (decide (255 < a.toNat + b.toNat))

/-- The no-borrow flag of `a - b` (R84, R85): 1 when `a` is at least `b`. -/
def noBorrowFlag (a b : Byte) : Byte := flagByte (decide (b.toNat ≤ a.toNat))

/-- The bit 8XY6 shifts out: bit 0 (R86). -/
def shiftedOutRight (a : Byte) : Byte := a &&& 0x01#8

/-- The bit 8XYE shifts out: bit 7 (R87). -/
def shiftedOutLeft (a : Byte) : Byte := (a >>> 7) &&& 0x01#8

/-- The overflow flag of FX1E: the exact sum does not fit `bits` bits (43_memory_index.md R90, bits = 12: past 0xFFF). -/
def indexOverflowFlag (bits : Nat) (i : Word) (a : Byte) : Byte := flagByte (decide (2 ^ bits ≤ i.toNat + a.toNat))

end Sys2Proof.Machine
end

