-- ==== Sys2Proof/Machine/Operands.lean ====
section
/-! DEFINITION. Operand forms: what an instruction reads or addresses, computed from its fields and the state
(30_encoding.md R51; 43_memory_index.md). -/

namespace Sys2Proof.Machine

/-- `zext_16(nnn)`: an absolute address as a 16-bit value (R51). -/
def zext16 (nnn : Addr) : Word := nnn.setWidth 16

/-- The effective address `I + k`, an unbounded natural (20_memory.md R30); modulo 4096 only in the variant of D10. -/
def effectiveAddress (mask12 : Bool) (i : Word) (k : Nat) : Nat :=
  if mask12 then (i.toNat + k) % Config.memSize else i.toNat + k

/-- The address of the `k`-th byte accessed through I. -/
def State.indexed (s : State) (k : Nat) : Nat := effectiveAddress maskI12 s.i k

/-- The register jump-with-offset adds: V0 (R73), or Vx in the variant of D19. -/
def offsetRegister (usesVx : Bool) (nnn : Addr) : RegIx := if usesVx then (nnn.extractLsb' 8 4).toFin else 0

/-- BNNN's target, not masked to 12 bits (41_control_flow.md R73). -/
def offsetTarget (nnn : Addr) (s : State) : Word :=
  zext16 nnn + (s.reg (offsetRegister bnnnUsesVx nnn)).setWidth 16

/-- The value a shift shifts: Vx (42_register_alu.md R86, R87), or Vy in the variant of D23. -/
def shiftSource (readsVy : Bool) (x y : RegIx) (s : State) : Byte := if readsVy then s.reg y else s.reg x

/-- The address of the glyph of the digit in the low nibble of `a` (43_memory_index.md R91). -/
def glyphAddress (a : Byte) : Word :=
  BitVec.ofNat 16 (Config.fontBase + Config.glyphBytes * (a &&& 0x0F#8).toNat)

/-- The hundreds digit of `a` (43_memory_index.md R92). -/
def hundreds (a : Byte) : Byte := a / 100#8

/-- The tens digit of `a`. -/
def tens (a : Byte) : Byte := a / 10#8 % 10#8

/-- The ones digit of `a`. -/
def ones (a : Byte) : Byte := a % 10#8

/-- Where FX55 and FX65 leave I: unchanged (R93, R94), or past the last byte in the variant of D28. -/
def indexAfterBulk (increments : Bool) (x : RegIx) (i : Word) : Word :=
  if increments then i + BitVec.ofNat 16 (x.val + 1) else i

/-- The column a sprite pixel falls in, wrapped modulo the screen's width (44_display.md R97). -/
def wrapX (n : Nat) : Fin 64 := Fin.ofNat 64 n

/-- The row a sprite pixel falls in, wrapped modulo the screen's height (R97). -/
def wrapY (n : Nat) : Fin 32 := Fin.ofNat 32 n

/-- The register a loop over V0, V1, ... reaches at `k` (R93, R94). -/
def nthReg (k : Nat) : RegIx := Fin.ofNat 16 k

end Sys2Proof.Machine
end

