-- ==== Sys2Proof/Machine/Alu.lean ====
section
/-! DEFINITION. Register and ALU instructions (42_register_alu.md). -/

namespace Sys2Proof.Machine

/-- LD Vx, nn (R77). -/
def execLdImm (x : RegIx) (nn : Byte) (s : State) : Host.Outcome State Fault Refusal :=
  .next (advance (s.setReg x nn))

/-- ADD Vx, nn (R78): no flag. -/
def execAddImm (x : RegIx) (nn : Byte) (s : State) : Host.Outcome State Fault Refusal :=
  .next (advance (s.setReg x (s.reg x + nn)))

/-- LD Vx, Vy (R79). -/
def execLdReg (x y : RegIx) (s : State) : Host.Outcome State Fault Refusal :=
  .next (advance (s.setReg x (s.reg y)))

/-- OR Vx, Vy (R80). -/
def execOrReg (x y : RegIx) (s : State) : Host.Outcome State Fault Refusal :=
  .next (advance (writeLogicResult logicResetsVf x (s.reg x ||| s.reg y) s))

/-- AND Vx, Vy (R81). -/
def execAndReg (x y : RegIx) (s : State) : Host.Outcome State Fault Refusal :=
  .next (advance (writeLogicResult logicResetsVf x (s.reg x &&& s.reg y) s))

/-- XOR Vx, Vy (R82). -/
def execXorReg (x y : RegIx) (s : State) : Host.Outcome State Fault Refusal :=
  .next (advance (writeLogicResult logicResetsVf x (s.reg x ^^^ s.reg y) s))

/-- ADD Vx, Vy (R83). -/
def execAddReg (x y : RegIx) (s : State) : Host.Outcome State Fault Refusal :=
  .next (advance (writeFlagAndResult flagWrittenLast x (carryFlag (s.reg x) (s.reg y)) (s.reg x + s.reg y) s))

/-- SUB Vx, Vy (R84). -/
def execSubReg (x y : RegIx) (s : State) : Host.Outcome State Fault Refusal :=
  .next (advance (writeFlagAndResult flagWrittenLast x (noBorrowFlag (s.reg x) (s.reg y)) (s.reg x - s.reg y) s))

/-- SUBN Vx, Vy (R85). -/
def execSubnReg (x y : RegIx) (s : State) : Host.Outcome State Fault Refusal :=
  .next (advance (writeFlagAndResult flagWrittenLast x (noBorrowFlag (s.reg y) (s.reg x)) (s.reg y - s.reg x) s))

/-- SHR Vx, Vy (R86). -/
def execShrReg (x y : RegIx) (s : State) : Host.Outcome State Fault Refusal :=
  let a := shiftSource shiftReadsVy x y s
  .next (advance (writeFlagAndResult flagWrittenLast x (shiftedOutRight a) (a >>> 1) s))

/-- SHL Vx, Vy (R87). -/
def execShlReg (x y : RegIx) (s : State) : Host.Outcome State Fault Refusal :=
  let a := shiftSource shiftReadsVy x y s
  .next (advance (writeFlagAndResult flagWrittenLast x (shiftedOutLeft a) (a <<< 1) s))

/-- RND Vx, nn (R88): a free byte under a mask. -/
def execRnd (x : RegIx) (nn : Byte) (s : State) : Host.Outcome State Fault Refusal :=
  let r := drawRandom s
  .next (advance (r.2.setReg x (r.1 &&& nn)))

end Sys2Proof.Machine
end

