-- ==== Sys2Proof/Machine/Control.lean ====
section
/-! DEFINITION. Control flow (41_control_flow.md). -/

namespace Sys2Proof.Machine

/-- SYS nnn: a no-op (R74); it signals UnknownOpcode only in the variant of D17. -/
def execSys (nnn : Addr) (s : State) : Host.Outcome State Fault Refusal :=
  .next (advance (if sysSignalsUnknown then s.signal (.unknownOpcode s.pc (zext16 nnn)) else s))

/-- JP nnn (R66). -/
def execJp (nnn : Addr) (s : State) : Host.Outcome State Fault Refusal := .next (jumpTo (zext16 nnn) s)

/-- CALL nnn (R67): the call's own address is pushed; at SP = 16 the fault is taken instead. -/
def execCall (nnn : Addr) (s : State) : Host.Outcome State Fault Refusal :=
  if h : s.sp.val < Config.stackDepth then .next (jumpTo (zext16 nnn) (push s.pc s h))
  else .next (takeFault .stackOverflow s)

/-- RET (R68): at SP = 0 the fault is taken instead. -/
def execRet (s : State) : Host.Outcome State Fault Refusal :=
  if h : 0 < s.sp.val then .next (returnFromCall s h) else .next (takeFault .stackUnderflow s)

/-- SE Vx, nn (R69). -/
def execSeImm (x : RegIx) (nn : Byte) (s : State) : Host.Outcome State Fault Refusal :=
  .next (skipIf (s.reg x == nn) s)

/-- SNE Vx, nn (R70). -/
def execSneImm (x : RegIx) (nn : Byte) (s : State) : Host.Outcome State Fault Refusal :=
  .next (skipIf (s.reg x != nn) s)

/-- SE Vx, Vy (R71). -/
def execSeReg (x y : RegIx) (s : State) : Host.Outcome State Fault Refusal :=
  .next (skipIf (s.reg x == s.reg y) s)

/-- SNE Vx, Vy (R72). -/
def execSneReg (x y : RegIx) (s : State) : Host.Outcome State Fault Refusal :=
  .next (skipIf (s.reg x != s.reg y) s)

/-- JP V0, nnn (R73). -/
def execJpV0 (nnn : Addr) (s : State) : Host.Outcome State Fault Refusal := .next (jumpTo (offsetTarget nnn s) s)

end Sys2Proof.Machine
end

