-- ==== Sys2Proof/Machine/Display.lean ====
section
/-! DEFINITION. Display instructions (44_display.md). -/

namespace Sys2Proof.Machine

/-- `RDRAW <- true`. -/
def raiseRedraw (s : State) : State := { s with rdraw := true }

/-- CLS (R96). -/
def execCls (s : State) : Host.Outcome State Fault Refusal :=
  .next (advance (raiseRedraw { s with fb := Framebuffer.clear }))

/-- XOR of a set sprite bit into a pixel; turning a set pixel off sets VF (R97). -/
def togglePixel (px : Fin 64) (py : Fin 32) (s : State) : State :=
  if s.pixel px py then (s.setReg vf 1).setPixel px py false else s.setPixel px py true

/-- Column `c` of the sprite row `row`, drawn at (xs + c, ys + r); the most significant bit is column 0 (R97). -/
def drawBit (xs ys r : Nat) (row : Byte) (s : State) (c : Nat) : State :=
  if row.getLsbD (7 - c) then togglePixel (wrapX (xs + c)) (wrapY (ys + r)) s else s

/-- Row `r` of a sprite at (xs, ys): one byte read at I + r, eight columns (R97). -/
def drawRow (xs ys : Nat) (s : State) (r : Nat) : State :=
  let m := memRead (s.indexed r) s
  (List.range Config.spriteWidth).foldl (drawBit xs ys r m.1) m.2

/-- DRW Vx, Vy, n (R97): the coordinates are read before VF is cleared. -/
def execDrw (x y : RegIx) (n : Rows) (s : State) : Host.Outcome State Fault Refusal :=
  let xs := (s.reg x).toNat
  let ys := (s.reg y).toNat
  .next (advance (raiseRedraw ((List.range n.val).foldl (drawRow xs ys) (s.setReg vf 0))))

end Sys2Proof.Machine
end

