-- ==== Sys2Proof/Machine/Index.lean ====
section
/-! DEFINITION. Memory and index instructions (43_memory_index.md). -/

namespace Sys2Proof.Machine

/-- `I <- w`. -/
def State.setI (s : State) (w : Word) : State := { s with i := w }

/-- LD I, nnn (R89). -/
def execLdI (nnn : Addr) (s : State) : Host.Outcome State Fault Refusal := .next (advance (s.setI (zext16 nnn)))

/-- VF after FX1E (R90): the overflow flag, or unchanged in a variant of D25. -/
def writeIndexOverflow (bits : Option Nat) (i : Word) (a : Byte) (s : State) : State :=
  match bits with
  | some n => s.setReg vf (indexOverflowFlag n i a)
  | none => s

/-- ADD I, Vx (R90). -/
def execAddI (x : RegIx) (s : State) : Host.Outcome State Fault Refusal :=
  let a := s.reg x
  .next (advance ((writeIndexOverflow addIFlagBits s.i a s).setI (s.i + a.setWidth 16)))

/-- LD F, Vx (R91). -/
def execLdF (x : RegIx) (s : State) : Host.Outcome State Fault Refusal :=
  .next (advance (s.setI (glyphAddress (s.reg x))))

/-- LD B, Vx (R92): three bytes, hundreds first. -/
def execLdB (x : RegIx) (s : State) : Host.Outcome State Fault Refusal :=
  let a := s.reg x
  .next (advance (memWrite (s.indexed 2) (ones a) (memWrite (s.indexed 1) (tens a)
    (memWrite (s.indexed 0) (hundreds a) s))))

/-- The bulk store's loop over the offsets `ks`, reading the registers and I of `s` (R93). -/
def storeRegs (s : State) (ks : List Nat) (t : State) : State :=
  ks.foldl (fun t k => memWrite (s.indexed k) (s.reg (nthReg k)) t) t

/-- LD [I], Vx (R93): V0..Vx, ascending. -/
def execLdMemVx (x : RegIx) (s : State) : Host.Outcome State Fault Refusal :=
  .next (advance ((storeRegs s (List.range (x.val + 1)) s).setI (indexAfterBulk bulkIncrementsI x s.i)))

/-- One byte of the bulk load: `V[k] <- MemRead(I + k, 1)` (R94). -/
def loadReg (t : State) (k : Nat) : State :=
  let m := memRead (t.indexed k) t
  m.2.setReg (nthReg k) m.1

/-- LD Vx, [I] (R94): V0..Vx, ascending. -/
def execLdVxMem (x : RegIx) (s : State) : Host.Outcome State Fault Refusal :=
  .next (advance (((List.range (x.val + 1)).foldl loadReg s).setI (indexAfterBulk bulkIncrementsI x s.i)))

end Sys2Proof.Machine
end

