-- ==== Sys2Proof/Machine/Input.lean ====
section
/-! DEFINITION. Input instructions, the AwaitingKey poll (45_input.md) and the keypad's write port (60_exceptions.md R117). -/

namespace Sys2Proof.Machine

/-- SKP Vx (R98). -/
def execSkp (x : RegIx) (s : State) : Host.Outcome State Fault Refusal :=
  let a := (s.reg x).toNat
  .next (skipIf (s.keyPressed a) (checkKey a s))

/-- SKNP Vx (R99). -/
def execSknp (x : RegIx) (s : State) : Host.Outcome State Fault Refusal :=
  let a := (s.reg x).toNat
  .next (skipIf (!s.keyPressed a) (checkKey a s))

/-- LD Vx, K (R100): the wait begins; the keypad is not looked at. -/
def execLdVxK (x : RegIx) (s : State) : Host.Outcome State Fault Refusal :=
  .next (advance { s with run := .awaitingKey x })

/-- The lowest-numbered pressed key (R101). -/
def lowestPressed (s : State) : Option Nat := (List.range Config.nKeys).find? s.keyPressed

/-- `poll_key(x)` (R101): a pressed key goes to `V[x]` and the machine runs again; otherwise nothing changes. -/
def pollKey (x : RegIx) (s : State) : State :=
  match lowestPressed s with
  | some k => { s.setReg x (BitVec.ofNat 8 k) with run := .running }
  | none => s

/-- `SET_KEY(k, b)` (R117), with the conditions it signals. -/
def setKey (k : Nat) (b : Bool) (s : State) : State × List Condition :=
  if h : k < Config.nKeys then ({ s with key := s.key.set k b h }, [])
  else (s, [.outOfRangeAccess (.key k)])

end Sys2Proof.Machine
end

