-- ==== Sys2Proof/Machine/Timers.lean ====
section
/-! DEFINITION. Timer instructions (46_timers.md) and the timer tick (60_exceptions.md R114, R116). -/

namespace Sys2Proof.Machine

/-- LD Vx, DT (R102). -/
def execLdVxDt (x : RegIx) (s : State) : Host.Outcome State Fault Refusal := .next (advance (s.setReg x s.dt))

/-- LD DT, Vx (R103). -/
def execLdDtVx (x : RegIx) (s : State) : Host.Outcome State Fault Refusal :=
  .next (advance { s with dt := s.reg x })

/-- LD ST, Vx (R104). -/
def execLdStVx (x : RegIx) (s : State) : Host.Outcome State Fault Refusal :=
  .next (advance { s with st := s.reg x })

/-- A timer counted down by 1 if non-zero (R114). -/
def countDown (t : Byte) : Byte := if t = 0 then 0 else t - 1

/-- `TICK()` (R114): both timers, in every run state; no conditions. -/
def tick (s : State) : State := { s with dt := countDown s.dt, st := countDown s.st }

/-- The sound output: `ST != 0` (R116). -/
def soundOn (s : State) : Bool := s.st != 0

end Sys2Proof.Machine
end

