-- ==== Sys2Proof/Machine/Engine.lean ====
section
/-! DEFINITION. The parts of STEP (40_engine_cycle.md): its start, the fetch, an unknown word, one running cycle, its result. -/

namespace Sys2Proof.Machine

/-- The start of every STEP (R57): an empty condition list, RDRAW cleared. -/
def beginStep (s : State) : State := { s with rdraw := false, conds := [] }

/-- `fetch()` (R59): two bounds-checked byte reads at PC and PC + 1, the high byte first. -/
def fetch (s : State) : Word × State :=
  let hi := memRead s.pc.toNat s
  let lo := memRead (s.pc.toNat + 1) hi.2
  (wordOfBytes hi.1 lo.1, lo.2)

/-- `execute(Unknown, op)` (R63): the condition and the generic advance. -/
def execUnknown (op : Word) (s : State) : State := advance (s.signal (.unknownOpcode s.pc op))

/-- One fetch-decode-execute cycle, `Running` (R57). -/
def stepRunning (s : State) : Host.Outcome State Fault Refusal :=
  let f := fetch s
  match decode f.1 with
  | .instruction i => exec i f.2
  | .unknown op => .next (execUnknown op f.2)

/-- A STEP while `Faulted(f)` (R109): it changes nothing. -/
def stepFaulted (s : State) : State := s

/-- The fault a STEP reports, if any (R58): the one RUN holds when the step ends (log entry 18). -/
def State.faultOf (s : State) : Option Fault :=
  match s.run with
  | .faulted f => some f
  | .running | .awaitingKey _ => none

end Sys2Proof.Machine
end

