-- ==== Sys2Proof/Machine/Step.lean ====
section
/-! DEFINITION. STEP (40_engine_cycle.md R57), its result (R58), and placing an instruction where it fetches. -/

namespace Sys2Proof.Machine

/-- `STEP()` (R57). Its outcome, redraw flag and conditions are read from the next state (R58; log entries 1, 18). -/
def step (s : State) : Host.Outcome State Fault Refusal :=
  match s.run with
  | .faulted _ => .next (stepFaulted (beginStep s))
  | .awaitingKey x => .next (pollKey x (beginStep s))
  | .running => stepRunning (beginStep s)

/-- `StepResult` (R58). `fault` is none for the outcome `Ok`. -/
structure StepResult where
  fault : Option Fault
  redraw : Bool
  conditions : List Condition
deriving DecidableEq, Repr

/-- The result of the STEP that ended in `s` (R58). -/
def State.stepResult (s : State) : StepResult := ⟨s.faultOf, s.rdraw, s.conds⟩

/-- `s` with the instruction whose bits are `w` stored, high byte first, where `step` fetches next. The engine runs, and where
PC names no two bytes of memory it is moved to the program base (log entry 15). -/
def State.withFetchWord (s : State) (nbits w : Nat) : State :=
  let op : Word := BitVec.ofNat 16 (w % 2 ^ nbits)
  let pc : Word := if s.pc.toNat + 1 < Config.memSize then s.pc else BitVec.ofNat 16 Config.progBase
  { s with
    pc := pc
    run := .running
    mem := s.mem.writeBytes pc.toNat [highByte op, lowByte op] }

end Sys2Proof.Machine
end

