-- ==== Sys2Proof/Machine/Introspection.lean ====
section
/-! DEFINITION. The read-only introspection port (60_exceptions.md R119): each read gives a value and the conditions it signals. -/

namespace Sys2Proof.Machine

/-- PEEK_REG. -/
def peekReg (i : Nat) (s : State) : Byte × List Condition :=
  if h : i < Config.nRegs then (s.reg ⟨i, h⟩, []) else (0, [.outOfRangeAccess (.register i)])

/-- PEEK_MEM. -/
def peekMem (a : Nat) (s : State) : Byte × List Condition :=
  (s.readByte a, if a < Config.memSize then [] else [.outOfRangeAccess (.memory a)])

/-- PEEK_PIXEL, as 0 or 1. -/
def peekPixel (px py : Nat) (s : State) : Nat × List Condition :=
  if h : px < Config.fbWidth ∧ py < Config.fbHeight then ((s.pixel ⟨px, h.1⟩ ⟨py, h.2⟩).toNat, [])
  else (0, [.outOfRangeAccess (.pixel px py)])

/-- PEEK_PC. -/
def peekPc (s : State) : Word := s.pc

/-- PEEK_I. -/
def peekI (s : State) : Word := s.i

/-- PEEK_SP. -/
def peekSp (s : State) : Nat := s.sp.val

/-- PEEK_RDRAW. -/
def peekRdraw (s : State) : Bool := s.rdraw

/-- PEEK_DT. -/
def peekDt (s : State) : Byte := s.dt

/-- PEEK_ST. -/
def peekSt (s : State) : Byte := s.st

/-- PEEK_RUN. -/
def peekRun (s : State) : RunState := s.run

/-- The introspection reads by name. -/
inductive Peek where
  | reg (i : Nat) | mem (a : Nat) | pixel (px py : Nat) | pc | i | sp | rdraw | dt | st | run
deriving DecidableEq, Repr

/-- What an introspection read gives. -/
inductive PeekValue where
  | byte (b : Byte) | word (w : Word) | nat (n : Nat) | bool (b : Bool) | run (r : RunState)
deriving DecidableEq, Repr

/-- An introspection read, by name. -/
def peek (p : Peek) (s : State) : PeekValue × List Condition :=
  match p with
  | .reg i => ((.byte (peekReg i s).1), (peekReg i s).2)
  | .mem a => ((.byte (peekMem a s).1), (peekMem a s).2)
  | .pixel px py => ((.nat (peekPixel px py s).1), (peekPixel px py s).2)
  | .pc => (.word (peekPc s), [])
  | .i => (.word (peekI s), [])
  | .sp => (.nat (peekSp s), [])
  | .rdraw => (.bool (peekRdraw s), [])
  | .dt => (.byte (peekDt s), [])
  | .st => (.byte (peekSt s), [])
  | .run => (.run (peekRun s), [])

end Sys2Proof.Machine
end

