-- ==== Sys2Proof/Machine/Loader.lean ====
section
/-! DEFINITION. RESET and LOAD (70_reset_and_hazards.md R122, R124, R125). -/

namespace Sys2Proof.Machine

/-- `RESET()` (R122): every state element at its reset value. The free input RAND is not state, so its counter goes on
(log entry 2). -/
def resetOperation (s : State) : State := { State.reset with draws := s.draws }

/-- The causes of `LoadFault` decided inside the CORE (R125). -/
inductive LoadFault where
  | programTooLarge
deriving DecidableEq, Repr

/-- What LOAD returns: `ok` (no fault) or `LoadFault` (R124), and beside it the list of conditions it signalled
(60_exceptions.md R105). -/
structure LoadResult where
  fault : Option LoadFault
  conditions : List Condition
deriving DecidableEq, Repr

/-- `LOAD(bytes)` (R124): all or nothing, from 0x200 up. It signals no condition (R106). -/
def load (bytes : List Byte) (s : State) : State × LoadResult :=
  if Config.maxProg < bytes.length then (s, ⟨some .programTooLarge, []⟩)
  else ({ s with mem := s.mem.writeBytes Config.progBase bytes }, ⟨none, []⟩)

end Sys2Proof.Machine
end

