-- ==== Sys2Proof/Machine/Schedule.lean ====
section
/-! DEFINITION. The transaction-level interface (00_scope.md R5): the host's atomic operations, and a schedule of them, which
is an input (70_reset_and_hazards.md R128; log entry 12). -/

namespace Sys2Proof.Machine

/-- One atomic operation the host invokes (R5). -/
inductive Operation where
  | step
  | tick
  | setKey (k : Nat) (b : Bool)
  | load (bytes : List Byte)
  | reset
  | peek (p : Peek)
deriving DecidableEq, Repr

/-- What an operation returns to the host: its result, and in every case the conditions it signalled, in order
(60_exceptions.md R105). -/
inductive Response where
  | stepped (r : StepResult)
  | done (conditions : List Condition)
  | loaded (r : LoadResult)
  | peeked (value : PeekValue) (conditions : List Condition)
deriving DecidableEq, Repr

/-- One operation, run to completion before any other touches state (R5, R43, R64). -/
def perform (o : Operation) (s : State) : Host.Outcome (State × Response) Fault Refusal :=
  match o with
  | .step =>
    match Sys2Proof.Machine.step s with
    | .next t => .next (t, .stepped t.stepResult)
    | .fault f => .fault f
    | .refused r => .refused r
  | .tick => .next (Sys2Proof.Machine.tick s, .done [])
  | .setKey k b => .next ((Sys2Proof.Machine.setKey k b s).1, .done (Sys2Proof.Machine.setKey k b s).2)
  | .load bytes => .next ((Sys2Proof.Machine.load bytes s).1, .loaded (Sys2Proof.Machine.load bytes s).2)
  | .reset => .next (resetOperation s, .done [])
  | .peek p => .next (s, .peeked (Sys2Proof.Machine.peek p s).1 (Sys2Proof.Machine.peek p s).2)

/-- A schedule: operations one after the other, with their responses in order (R128). -/
def runOperations : List Operation → State → Host.Outcome (State × List Response) Fault Refusal
  | [], s => .next (s, [])
  | o :: rest, s =>
    match perform o s with
    | .next (t, r) =>
      match runOperations rest t with
      | .next (u, rs) => .next (u, r :: rs)
      | .fault f => .fault f
      | .refused r => .refused r
    | .fault f => .fault f
    | .refused r => .refused r

end Sys2Proof.Machine
end

