-- ==== Sys2Proof/Safety.lean ====
section
/-! DEFINITION. The terms claims are stated in: the invariant, the ends of a run, and what an instruction may write. -/

namespace Sys2Proof.Machine

/-! ## The invariant -/

/-- A latched fault agrees with the call stack that raised it (60_exceptions.md R107, R108, R109). -/
def FaultMatchesStack (s : State) : Prop :=
  (s.run = .faulted .stackOverflow → s.sp.val = 16) ∧ (s.run = .faulted .stackUnderflow → s.sp.val = 0)

/-- What every operation of the host keeps: memory in its canonical form, a latched fault that matches the stack, and a raised
redraw flag only while the engine runs (10_state.md R25, R26). -/
structure Inv (s : State) : Prop where
  memory : s.mem.wf = true
  fault : FaultMatchesStack s
  redraw : s.rdraw = true → s.run = .running

/-! ## The ends of a run (70_reset_and_hazards.md R130) -/

/-- The run ends at `a`: Running, PC = `a`, and the word at `a` is JP `a`, with `a` at most 0xFFE (R130). -/
structure EndsAt (a : Addr) (s : State) : Prop where
  running : s.run = .running
  pc : s.pc = zext16 a
  inRange : a.toNat ≤ 0xFFE
  word : wordOfBytes (s.readByte a.toNat) (s.readByte (a.toNat + 1)) = encode (.jp a)

/-- Stuck, not ended: waiting for a key while none is pressed (R130, R101). -/
def StuckAwaiting (s : State) : Prop := (∃ x, s.run = .awaitingKey x) ∧ ∀ k, s.keyPressed k = false

/-- A safe run has latched no fault: `Faulted` is an end that is never a success (R130). -/
def SafeState (s : State) : Prop := ∀ f, s.run ≠ .faulted f

/-! ## Conditions -/

/-- The conditions that accesses to the addresses `as` signal, in order: one per address at or above 4096 (20_memory.md R31,
R32, R41). -/
def outOfRange (as : List Nat) : List Condition :=
  (as.filter fun a => decide (4096 ≤ a)).map fun a => .outOfRangeAccess (.memory a)

/-- The conditions an instruction's own accesses signal, in order (60_exceptions.md R106): memory through I by DXYN, FX33, FX55
and FX65, a key by EX9E and EXA1, and no others. -/
def accessConditions (s : State) : Instr → List Condition
  | .drw _ _ n => outOfRange ((List.range n.val).map (s.i.toNat + ·))
  | .ldB _ => outOfRange [s.i.toNat, s.i.toNat + 1, s.i.toNat + 2]
  | .ldMemVx x | .ldVxMem x => outOfRange ((List.range (x.val + 1)).map (s.i.toNat + ·))
  | .skp x | .sknp x => if (s.reg x).toNat < 16 then [] else [.outOfRangeAccess (.key (s.reg x).toNat)]
  | _ => []

/-! ## What an instruction may write -/

/-- The general registers an instruction writes: its destination, and VF where the rule names a flag (10_state.md R16). -/
def writesReg (i : Instr) (r : RegIx) : Prop :=
  match i with
  | .ldImm x _ | .addImm x _ | .ldReg x _ | .orReg x _ | .andReg x _ | .xorReg x _ | .rnd x _ | .ldVxDt x => r = x
  | .addReg x _ | .subReg x _ | .shrReg x _ | .subnReg x _ | .shlReg x _ => r = x ∨ r = vf
  | .drw _ _ _ | .addI _ => r = vf
  | .ldVxMem x => r ≤ x
  | _ => False

/-- The instructions that write I: ANNN, FX1E and FX29 (10_state.md R18). -/
def writesIndex : Instr → Prop
  | .ldI _ | .addI _ | .ldF _ => True
  | _ => False

/-- How many bytes an instruction stores from I up: FX33 three, FX55 x + 1, every other none (20_memory.md R33). -/
def storedBytes : Instr → Nat
  | .ldB _ => 3
  | .ldMemVx x => x.val + 1
  | _ => 0

/-- The instructions that write SP: CALL and RET (10_state.md R20). -/
def writesStack : Instr → Prop
  | .call _ | .ret => True
  | _ => False

/-- The instructions that write the framebuffer and raise RDRAW: 00E0 and DXYN (10_state.md R22, R25). -/
def writesScreen : Instr → Prop
  | .cls | .drw _ _ _ => True
  | _ => False

/-- The instructions that may write RUN: FX0A, and CALL and RET when they fault (10_state.md R26). -/
def writesRun : Instr → Prop
  | .ldVxK _ | .call _ | .ret => True
  | _ => False

/-- `t` differs from `s` at most in the general registers and PC. -/
structure SameOutsideRegisters (s t : State) : Prop where
  memory : ∀ a, t.readByte a = s.readByte a
  index : t.i = s.i
  sp : t.sp = s.sp
  slots : ∀ j : Fin 16, t.stk[j] = s.stk[j]
  pixels : ∀ px py, t.pixel px py = s.pixel px py
  delay : t.dt = s.dt
  sound : t.st = s.st
  keys : ∀ k, t.keyPressed k = s.keyPressed k
  redraw : t.rdraw = s.rdraw
  run : t.run = s.run
  conds : t.conds = s.conds

/-- A sprite of `n` rows at I, drawn at the coordinates in Vx and Vy, has a set bit at pixel (px, py) (44_display.md R97). -/
def SpriteBit (s : State) (x y : RegIx) (n : Rows) (px : Fin 64) (py : Fin 32) : Prop :=
  ∃ r c : Nat, r < n.val ∧ c < 8 ∧ (s.readByte (s.i.toNat + r)).getLsbD (7 - c) = true ∧
    px.val = ((s.reg x).toNat + c) % 64 ∧ py.val = ((s.reg y).toNat + r) % 32

/-- Two states a program cannot tell apart: they agree but for ST, RDRAW, the condition list and the stack slots at or above SP
(10_state.md R21, R23, R28). -/
structure SameForProgram (s t : State) : Prop where
  mem : t.mem = s.mem
  v : t.v = s.v
  i : t.i = s.i
  pc : t.pc = s.pc
  sp : t.sp = s.sp
  slots : ∀ j : Fin 16, j.val < s.sp.val → t.stk[j] = s.stk[j]
  fb : t.fb = s.fb
  dt : t.dt = s.dt
  key : t.key = s.key
  run : t.run = s.run
  draws : t.draws = s.draws

/-- `t` is `s` after a sequence of `n` TICKs (60_exceptions.md R114). -/
def ticks : Nat → State → State
  | 0, s => s
  | n + 1, s => ticks n (tick s)

end Sys2Proof.Machine
end

