-- ==== Sys2Proof/Certificates/Slice0/Obligations.lean ====
section
/-! DEFINITION. The statements for the provers. Each docstring names what it formalises; (Dn) marks a clause that spec/ itself
calls its own decision, (general knowledge) one it takes from general knowledge: those rest on the spec's choice, not its source. -/

open Sys2Proof Sys2Proof.Machine

/-! ## Encoding -/

/-- Decoding the word of a well-formed instruction gives the instruction back, every field at every value
(30_encoding.md section 2; general knowledge G4; D16). -/
def Obligations.DecodeOfEncodeIsTheInstruction : Prop :=
  ∀ i : Instr, WellFormed i → decode (encode i) = .instruction i

/-- A word that decodes to an instruction is the word of that instruction, which is well formed: each word has one meaning, and
SYS is never read from the words of CLS and RET (30_encoding.md section 2). -/
def Obligations.EncodeOfDecodeIsTheWord : Prop :=
  ∀ (w : Word) (i : Instr), decode w = .instruction i → encode i = w ∧ WellFormed i

/-- The unknown words are exactly those of the five spaces of 30_encoding.md section 3 (D16), and every other word decodes to an
instruction. -/
def Obligations.UnknownWordsAreTheFiveSpaces : Prop :=
  ∀ w : Word,
    (decode w = .unknown w ↔
      ((w.toNat / 4096 = 0x5 ∨ w.toNat / 4096 = 0x9) ∧ w.toNat % 16 ≠ 0) ∨
      (w.toNat / 4096 = 0x8 ∧ 8 ≤ w.toNat % 16 ∧ w.toNat % 16 ≠ 0xE) ∨
      (w.toNat / 4096 = 0xE ∧ w.toNat % 256 ≠ 0x9E ∧ w.toNat % 256 ≠ 0xA1) ∨
      (w.toNat / 4096 = 0xF ∧ w.toNat % 256 ∉ [0x07, 0x0A, 0x15, 0x18, 0x1E, 0x29, 0x33, 0x55, 0x65])) ∧
    (decode w ≠ .unknown w → ∃ i, decode w = .instruction i)

/-- Words written out from the source's examples (§8) and from spec/95_test_vectors.md decode to what they stand for. -/
def Obligations.WordsOfTheSpecDecode : Prop :=
  decode 0x6005#16 = .instruction (.ldImm 0 0x05) ∧ decode 0x2300#16 = .instruction (.call 0x300) ∧
  decode 0x00EE#16 = .instruction .ret ∧ decode 0x8AB4#16 = .instruction (.addReg 0xA 0xB) ∧
  decode 0xD015#16 = .instruction (.drw 0 1 5) ∧ decode 0xF333#16 = .instruction (.ldB 3) ∧
  decode 0xF30A#16 = .instruction (.ldVxK 3) ∧ decode 0xF515#16 = .instruction (.ldDtVx 5) ∧
  decode 0x00FB#16 = .instruction (.sys 0x0FB) ∧ decode 0x8128#16 = .unknown 0x8128#16 ∧
  decode 0xE39F#16 = .unknown 0xE39F#16

/-! ## Reset, memory, fetch -/

/-- What reset leaves: the 80 font bytes of 20_memory.md section 2 and zeros in memory, every register, pixel, timer, slot and key zero, PC at 0x200, Running
(70_reset_and_hazards.md section 1; D2, D3, D11). -/
def Obligations.ResetLeavesTheStatedValues : Prop :=
  (∀ a, State.reset.readByte a =
    ([0xF0, 0x90, 0x90, 0x90, 0xF0] ++ [0x20, 0x60, 0x20, 0x20, 0x70] ++ [0xF0, 0x10, 0xF0, 0x80, 0xF0] ++
      [0xF0, 0x10, 0xF0, 0x10, 0xF0] ++ [0x90, 0x90, 0xF0, 0x10, 0x10] ++ [0xF0, 0x80, 0xF0, 0x10, 0xF0] ++
      [0xF0, 0x80, 0xF0, 0x90, 0xF0] ++ [0xF0, 0x10, 0x20, 0x40, 0x40] ++ [0xF0, 0x90, 0xF0, 0x90, 0xF0] ++
      [0xF0, 0x90, 0xF0, 0x10, 0xF0] ++ [0xF0, 0x90, 0xF0, 0x90, 0x90] ++ [0xE0, 0x90, 0xE0, 0x90, 0xE0] ++
      [0xF0, 0x80, 0x80, 0x80, 0xF0] ++ [0xE0, 0x90, 0x90, 0x90, 0xE0] ++ [0xF0, 0x80, 0xF0, 0x80, 0xF0] ++
      [0xF0, 0x80, 0xF0, 0x80, 0x80] : List Byte).getD a 0) ∧
  (∀ x, State.reset.reg x = 0) ∧ State.reset.i = 0 ∧ State.reset.pc = 0x200 ∧ State.reset.sp.val = 0 ∧
  (∀ j : Fin 16, State.reset.stk[j] = 0) ∧ (∀ px py, State.reset.pixel px py = false) ∧
  State.reset.dt = 0 ∧ State.reset.st = 0 ∧ (∀ k, State.reset.keyPressed k = false) ∧
  State.reset.rdraw = false ∧ State.reset.run = .running

/-- R31: a read in range gives the byte and changes nothing; out of range it gives 0 and signals the address. -/
def Obligations.MemReadIsBounded : Prop :=
  ∀ (a : Nat) (s : State),
    (a < 4096 → memRead a s = (s.mem.read a, s)) ∧
    (4096 ≤ a → memRead a s = (0, { s with conds := s.conds ++ [.outOfRangeAccess (.memory a)] }))

/-- R32: a write in range sets that byte and leaves every other byte, and everything but memory, alone; out of range it changes
nothing and signals the address. -/
def Obligations.MemWriteIsBounded : Prop :=
  ∀ (a : Nat) (b : Byte) (s : State), s.mem.wf = true →
    (a < 4096 → (∀ a', (memWrite a b s).readByte a' = if a' = a then b else s.readByte a') ∧
      { memWrite a b s with mem := s.mem } = s) ∧
    (4096 ≤ a → memWrite a b s = { s with conds := s.conds ++ [.outOfRangeAccess (.memory a)] })

/-- The fetched opcode is the big-endian word of the bytes at PC and PC + 1, an out-of-range byte read as 0 and signalled, and
the fetch writes nothing (40_engine_cycle.md, the fetch; D10, D14). -/
def Obligations.FetchReadsTwoBytesHighFirst : Prop :=
  ∀ s : State,
    (fetch s).1.toNat = (s.readByte s.pc.toNat).toNat * 256 + (s.readByte (s.pc.toNat + 1)).toNat ∧
    (fetch s).2 = { s with conds := s.conds ++ outOfRange [s.pc.toNat, s.pc.toNat + 1] }

/-! ## STEP -/

/-- While Running, a step whose fetched word decodes to `i` is `exec i` at the state with RDRAW cleared and the fetch's
conditions listed; nothing is added around it, the PC advance being the instruction's own (40_engine_cycle.md, STEP). -/
def Obligations.StepRunsTheDecodedInstruction : Prop :=
  ∀ (s : State) (i : Instr), s.run = .running →
    decode (wordOfBytes (s.readByte s.pc.toNat) (s.readByte (s.pc.toNat + 1))) = .instruction i →
    step s = exec i { s with rdraw := false, conds := outOfRange [s.pc.toNat, s.pc.toNat + 1] }

/-- No step stops: from every state STEP answers a next state, whatever the word (60_exceptions.md section 3; D7, D16). -/
def Obligations.StepAlwaysAnswersANextState : Prop :=
  ∀ s : State, ∃ t, step s = .next t

/-- An unknown word signals UnknownOpcode with its address and itself, changes no other state, and PC advances by 2
(40_engine_cycle.md, the execution of Unknown). As every step it clears RDRAW first and lists the fetch's conditions before its
own (STEP; D8, D14), the second fetch address being PC + 1 without wrap (D10; log entry 8). -/
def Obligations.UnknownWordIsASignalledNoOp : Prop :=
  ∀ (s : State) (w : Word), s.run = .running →
    wordOfBytes (s.readByte s.pc.toNat) (s.readByte (s.pc.toNat + 1)) = w → decode w = .unknown w →
    step s = .next { s with
      rdraw := false
      conds := outOfRange [s.pc.toNat, s.pc.toNat + 1] ++ [.unknownOpcode s.pc w]
      pc := s.pc + 2 }

/-- A step while Faulted(f) reports f and changes nothing but RDRAW, which it keeps false; its condition list is empty
(60_exceptions.md section 2, D7). -/
def Obligations.FaultedStepReportsTheFaultAgain : Prop :=
  ∀ (s : State) (f : Fault), s.run = .faulted f →
    ∃ t, step s = .next t ∧ t = { s with rdraw := false, conds := [] } ∧ t.stepResult = ⟨some f, false, []⟩

/-- A poll with no key pressed changes nothing; a poll that finds keys pressed puts the lowest in the target register and the
engine runs again, PC unmoved (45_input.md, the AwaitingKey poll; D31). -/
def Obligations.PollTakesTheLowestPressedKey : Prop :=
  ∀ (s : State) (x : RegIx), s.run = .awaitingKey x →
    ((∀ k, s.keyPressed k = false) → step s = .next { s with rdraw := false, conds := [] }) ∧
    (∀ k, s.keyPressed k = true → (∀ j, j < k → s.keyPressed j = false) →
      ∃ t, step s = .next t ∧ (t.reg x).toNat = k ∧ (∀ r, r ≠ x → t.reg r = s.reg r) ∧
        { t with v := s.v } = { s with rdraw := false, conds := [], run := .running })

/-- After a step from Running, RDRAW is true exactly when the step executed 00E0 or DXYN (40_engine_cycle.md, StepResult;
D9). -/
def Obligations.RedrawIsRaisedByClsAndDrwOnly : Prop :=
  ∀ s t : State, s.run = .running → step s = .next t →
    (t.rdraw = true ↔
      ∃ i, decode (wordOfBytes (s.readByte s.pc.toNat) (s.readByte (s.pc.toNat + 1))) = .instruction i ∧ writesScreen i)

/-- The conditions of a step, exactly and in order (60_exceptions.md sections 1 and 3; D14, D30): the fetch's out-of-range
addresses; then, where the fetched word is unknown, one UnknownOpcode of PC and that word, and where it is an instruction, the
conditions of that instruction's own accesses, which only DXYN, FX33, FX55, FX65 (memory) and EX9E, EXA1 (a key) have. A step
that faults lists nothing after the fetch's, since CALL and RET have none. -/
def Obligations.ConditionsOfAStep : Prop :=
  ∀ s t : State, s.run = .running → step s = .next t →
    t.conds = outOfRange [s.pc.toNat, s.pc.toNat + 1] ++
      match decode (wordOfBytes (s.readByte s.pc.toNat) (s.readByte (s.pc.toNat + 1))) with
      | .unknown _ => [.unknownOpcode s.pc (wordOfBytes (s.readByte s.pc.toNat) (s.readByte (s.pc.toNat + 1)))]
      | .instruction i => accessConditions s i

/-- With an instruction's bits placed by `withFetchWord`, the next step runs that instruction (the model's own loading aid,
log entry 15). -/
def Obligations.PlacedWordRunsNext : Prop :=
  ∀ (s : State) (w : Word) (i : Instr), s.mem.wf = true → decode w = .instruction i →
    step (s.withFetchWord 16 w.toNat) =
      exec i { s.withFetchWord 16 w.toNat with rdraw := false, conds := [] }

/-! ## Register and ALU instructions -/

/-- R77: LD Vx, nn writes the constant and PC advances by 2; nothing else changes. -/
def Obligations.LoadImmediateSetsTheRegister : Prop :=
  ∀ (s : State) (x : RegIx) (nn : Byte), ∃ t, exec (.ldImm x nn) s = .next t ∧
    (∀ r, t.reg r = if r = x then nn else s.reg r) ∧ t.pc = s.pc + 2 ∧ SameOutsideRegisters s t

/-- ADD Vx, nn adds modulo 256 and writes no flag (42_register_alu.md section 2; D20). -/
def Obligations.AddImmediateWrapsWithoutFlag : Prop :=
  ∀ (s : State) (x : RegIx) (nn : Byte), ∃ t, exec (.addImm x nn) s = .next t ∧
    (∀ r, (t.reg r).toNat = if r = x then ((s.reg x).toNat + nn.toNat) % 256 else (s.reg r).toNat) ∧
    t.pc = s.pc + 2 ∧ SameOutsideRegisters s t

/-- LD Vx, Vy, OR, AND and XOR write Vx and nothing else; VF is not reset (42_register_alu.md section 3; D21). -/
def Obligations.CopyAndLogicWriteOnlyTheDestination : Prop :=
  ∀ (s : State) (x y : RegIx) (i : Instr) (result : Byte),
    (i, result) ∈ [(.ldReg x y, s.reg y), (.orReg x y, s.reg x ||| s.reg y), (.andReg x y, s.reg x &&& s.reg y),
      (.xorReg x y, s.reg x ^^^ s.reg y)] →
    ∃ t, exec i s = .next t ∧ (∀ r, t.reg r = if r = x then result else s.reg r) ∧
      t.pc = s.pc + 2 ∧ SameOutsideRegisters s t

/-- ADD Vx, Vy writes VF with the carry, then Vx with the sum modulo 256, both from the old operands (42_register_alu.md
section 4); with x = F the sum stands (D6; log entry 6). -/
def Obligations.AddSetsCarryThenSum : Prop :=
  ∀ (s : State) (x y : RegIx), ∃ t, exec (.addReg x y) s = .next t ∧
    (∀ r, (t.reg r).toNat =
      if r = x then ((s.reg x).toNat + (s.reg y).toNat) % 256
      else if r = vf then (if (s.reg x).toNat + (s.reg y).toNat > 255 then 1 else 0)
      else (s.reg r).toNat) ∧
    t.pc = s.pc + 2 ∧ SameOutsideRegisters s t

/-- SUB and SUBN write VF with 1 when no borrow occurs, then Vx with the difference modulo 256 (42_register_alu.md section 4;
D22, D6). -/
def Obligations.SubtractSetsNoBorrowThenDifference : Prop :=
  ∀ (s : State) (x y : RegIx) (i : Instr) (a b : Nat),
    (i, a, b) ∈ [(Instr.subReg x y, (s.reg x).toNat, (s.reg y).toNat), (Instr.subnReg x y, (s.reg y).toNat, (s.reg x).toNat)] →
    ∃ t, exec i s = .next t ∧
      (∀ r, (t.reg r).toNat =
        if r = x then (a + 256 - b) % 256 else if r = vf then (if a ≥ b then 1 else 0) else (s.reg r).toNat) ∧
      t.pc = s.pc + 2 ∧ SameOutsideRegisters s t

/-- SHR and SHL shift Vx by one, VF taking the bit shifted out before Vx is written; Vy is not read (42_register_alu.md
section 5; D23, D6). -/
def Obligations.ShiftsCaptureTheBitShiftedOut : Prop :=
  ∀ (s : State) (x y : RegIx) (i : Instr) (result flag : Nat),
    (i, result, flag) ∈ [(Instr.shrReg x y, (s.reg x).toNat / 2, (s.reg x).toNat % 2),
      (Instr.shlReg x y, (s.reg x).toNat * 2 % 256, (s.reg x).toNat / 128)] →
    ∃ t, exec i s = .next t ∧
      (∀ r, (t.reg r).toNat = if r = x then result else if r = vf then flag else (s.reg r).toNat) ∧
      t.pc = s.pc + 2 ∧ SameOutsideRegisters s t

/-- RND Vx, nn completes from every state: Vx becomes the next draw of the free input RAND under the mask nn, the draw is used
up, PC advances by 2, and nothing else changes; with nn = 0 the result is 0 (42_register_alu.md section 6; D24). The draw is the
model's free value `Config.rand` at its counter of draws (log entry 2), and this holds whatever its value. -/
def Obligations.RandomIsAFreeByteUnderTheMask : Prop :=
  ∀ (s : State) (x : RegIx) (nn : Byte), ∃ t, exec (.rnd x nn) s = .next t ∧
    t.reg x = Config.rand s.draws &&& nn ∧ (∀ r, r ≠ x → t.reg r = s.reg r) ∧ (nn = 0 → t.reg x = 0) ∧
    t.pc = s.pc + 2 ∧ SameOutsideRegisters s t ∧ t.draws = s.draws + 1

/-! ## Control flow -/

/-- SYS is a no-op that signals nothing (41_control_flow.md; D17). -/
def Obligations.SysOnlyAdvances : Prop :=
  ∀ (s : State) (nnn : Addr), exec (.sys nnn) s = .next { s with pc := s.pc + 2 }

/-- JP and JP V0 redirect: to nnn, and to nnn + V0 unmasked; nothing else changes (41_control_flow.md; general knowledge G10;
D19, D10). -/
def Obligations.JumpsSetOnlyThePc : Prop :=
  ∀ (s : State) (nnn : Addr) (i : Instr) (target : Nat),
    (i, target) ∈ [(Instr.jp nnn, nnn.toNat), (Instr.jpV0 nnn, nnn.toNat + (s.reg 0).toNat)] →
    ∃ t, exec i s = .next t ∧ t.pc.toNat = target ∧ { t with pc := s.pc } = s

/-- CALL pushes its own address and jumps, the other slots kept; at SP = 16 StackOverflow is raised instead, with PC, SP and STK
unchanged (41_control_flow.md, CALL): the fault is taken as a next state with RUN = Faulted and nothing else changed (D7; log
entry 3). -/
def Obligations.CallPushesItsOwnAddress : Prop :=
  ∀ (s : State) (nnn : Addr),
    (s.sp.val < 16 → ∃ t, exec (.call nnn) s = .next t ∧ t.pc.toNat = nnn.toNat ∧ t.sp.val = s.sp.val + 1 ∧
      (∀ j : Fin 16, t.stk[j] = if j.val = s.sp.val then s.pc else s.stk[j]) ∧
      { t with pc := s.pc, sp := s.sp, stk := s.stk } = s) ∧
    (s.sp.val = 16 → exec (.call nnn) s = .next { s with run := .faulted .stackOverflow })

/-- RET pops the saved address and PC takes it plus 2, modulo 65536, the slot kept; at SP = 0 StackUnderflow is raised instead,
with PC, SP and STK unchanged (41_control_flow.md, RET): the fault is taken as a next state with RUN = Faulted and nothing else
changed (D7; log entry 3). -/
def Obligations.ReturnGoesPastTheCall : Prop :=
  ∀ s : State,
    (∀ j : Fin 16, s.sp.val = j.val + 1 → ∃ t, exec .ret s = .next t ∧ t.pc.toNat = ((s.stk[j]).toNat + 2) % 65536 ∧
      t.sp.val = j.val ∧ { t with pc := s.pc, sp := s.sp } = s) ∧
    (s.sp.val = 0 → exec .ret s = .next { s with run := .faulted .stackUnderflow })

/-- A CALL and a later RET from any PC compose to "continue after the call": SP is as before, PC is past the CALL, and nothing but
the slot CALL wrote differs (41_control_flow.md, RET). -/
def Obligations.CallThenReturnContinuesAfterTheCall : Prop :=
  ∀ (s t u : State) (nnn : Addr) (pc : Word), s.sp.val < 16 → exec (.call nnn) s = .next t →
    exec .ret { t with pc := pc } = .next u → u.pc = s.pc + 2 ∧ { u with pc := s.pc, stk := s.stk } = s ∧
      ∀ j : Fin 16, j.val ≠ s.sp.val → u.stk[j] = s.stk[j]

/-- A step that finds no fault latched latches one exactly when it executes CALL at SP = 16, StackOverflow, or RET at SP = 0,
StackUnderflow (60_exceptions.md section 2). That a fault is latched, RUN = Faulted in the state the step ends in, is the spec's
decision D7 and the model's reading of it (log entries 3 and 18). -/
def Obligations.OnlyTheCallStackFaults : Prop :=
  ∀ (s t : State) (f : Fault), SafeState s → step s = .next t →
    (t.run = .faulted f ↔ s.run = .running ∧
      ((f = .stackOverflow ∧ s.sp.val = 16 ∧ ∃ nnn,
          decode (wordOfBytes (s.readByte s.pc.toNat) (s.readByte (s.pc.toNat + 1))) = .instruction (.call nnn)) ∨
        (f = .stackUnderflow ∧ s.sp.val = 0 ∧
          decode (wordOfBytes (s.readByte s.pc.toNat) (s.readByte (s.pc.toNat + 1))) = .instruction .ret)))

/-- Fault entry is precise: an instruction that latches a fault changes RUN and nothing else (60_exceptions.md section 2; D7). -/
def Obligations.FaultEntryIsPrecise : Prop :=
  ∀ (i : Instr) (s t : State) (f : Fault), SafeState s → exec i s = .next t → t.run = .faulted f →
    t = { s with run := .faulted f }

/-- A conditional skip moves PC by 4 when its condition holds and by 2 otherwise, and does nothing else (40_engine_cycle.md, the
skip; 41_control_flow.md; general knowledge G6, G11). -/
def Obligations.RegisterSkipsMoveOnlyThePc : Prop :=
  ∀ (s : State) (x y : RegIx) (nn : Byte) (i : Instr) (c : Prop),
    (i = .seImm x nn ∧ c = (s.reg x = nn)) ∨ (i = .sneImm x nn ∧ c = (s.reg x ≠ nn)) ∨
      (i = .seReg x y ∧ c = (s.reg x = s.reg y)) ∨ (i = .sneReg x y ∧ c = (s.reg x ≠ s.reg y)) →
    ∃ t, exec i s = .next t ∧ (c → t.pc = s.pc + 4) ∧ (¬ c → t.pc = s.pc + 2) ∧ { t with pc := s.pc } = s

/-! ## Memory and index -/

/-- LD I, nnn; LD F, Vx; ADD I, Vx: the new I, and VF for ADD I: 1 when the exact sum is above 0xFFF (43_memory_index.md; D25,
D26; general knowledge G19). -/
def Obligations.IndexInstructionsSetI : Prop :=
  ∀ (s : State) (x : RegIx) (nnn : Addr),
    (∃ t, exec (.ldI nnn) s = .next t ∧ t.i.toNat = nnn.toNat ∧ { t with i := s.i } = { s with pc := s.pc + 2 }) ∧
    (∃ t, exec (.ldF x) s = .next t ∧ t.i.toNat = 5 * ((s.reg x).toNat % 16) ∧
      { t with i := s.i } = { s with pc := s.pc + 2 }) ∧
    (∃ t, exec (.addI x) s = .next t ∧ t.i.toNat = (s.i.toNat + (s.reg x).toNat) % 65536 ∧
      (∀ r, (t.reg r).toNat =
        if r = vf then (if s.i.toNat + (s.reg x).toNat > 0xFFF then 1 else 0) else (s.reg r).toNat) ∧
      { t with i := s.i, v := s.v } = { s with pc := s.pc + 2 })

/-- LD B, Vx stores the hundreds, tens and ones digit of Vx at I, I + 1 and I + 2; a byte out of range is dropped and signalled;
every other byte, and all but memory, PC and the conditions, is unchanged (43_memory_index.md; D27, D10). -/
def Obligations.BcdStoresThreeDigits : Prop :=
  ∀ (s : State) (x : RegIx), s.mem.wf = true → ∃ t, exec (.ldB x) s = .next t ∧
    (∀ a, a < 4096 → (t.readByte a).toNat =
      if a = s.i.toNat then (s.reg x).toNat / 100
      else if a = s.i.toNat + 1 then (s.reg x).toNat / 10 % 10
      else if a = s.i.toNat + 2 then (s.reg x).toNat % 10
      else (s.readByte a).toNat) ∧
    { t with mem := s.mem } = { s with
      pc := s.pc + 2
      conds := s.conds ++ outOfRange [s.i.toNat, s.i.toNat + 1, s.i.toNat + 2] }

/-- LD [I], Vx stores V0..Vx from I up, ascending; bytes out of range are dropped and signalled; every other byte, and all but
memory, PC and the conditions, is unchanged, I among them (43_memory_index.md; D28, D10). -/
def Obligations.BulkStoreWritesV0ToVx : Prop :=
  ∀ (s : State) (x : RegIx), s.mem.wf = true → ∃ t, exec (.ldMemVx x) s = .next t ∧
    (∀ k : RegIx, k ≤ x → s.i.toNat + k.val < 4096 → t.readByte (s.i.toNat + k.val) = s.reg k) ∧
    (∀ a, (∀ k : RegIx, k ≤ x → a ≠ s.i.toNat + k.val) → t.readByte a = s.readByte a) ∧
    { t with mem := s.mem } = { s with
      pc := s.pc + 2
      conds := s.conds ++ outOfRange ((List.range (x.val + 1)).map (s.i.toNat + ·)) }

/-- LD Vx, [I] loads V0..Vx from I up, 0 where out of range, each such read signalled; nothing else changes, I among them
(43_memory_index.md; D28, D10). -/
def Obligations.BulkLoadReadsV0ToVx : Prop :=
  ∀ (s : State) (x : RegIx), ∃ t, exec (.ldVxMem x) s = .next t ∧
    (∀ k : RegIx, t.reg k = if k ≤ x then s.readByte (s.i.toNat + k.val) else s.reg k) ∧
    { t with v := s.v } = { s with
      pc := s.pc + 2
      conds := s.conds ++ outOfRange ((List.range (x.val + 1)).map (s.i.toNat + ·)) }

/-- A bulk load of what a bulk store wrote gives the registers back, when every byte lies in memory (43_memory_index.md; D28). -/
def Obligations.BulkLoadUndoesBulkStore : Prop :=
  ∀ (s t u : State) (x : RegIx) (v' : Vector Byte 16), s.mem.wf = true → s.i.toNat + x.val < 4096 →
    exec (.ldMemVx x) s = .next t → exec (.ldVxMem x) { t with v := v' } = .next u →
    ∀ k : RegIx, u.reg k = if k ≤ x then s.reg k else v'[k]

/-- FX29 points at the five font bytes of its digit: after reset they are the glyph's rows (43_memory_index.md; 20_memory.md
section 2; D11, D26). -/
def Obligations.GlyphAddressPointsIntoTheFont : Prop :=
  ∀ (d : Fin 16) (r : Fin 5),
    State.reset.readByte ((glyphAddress (BitVec.ofNat 8 d.val)).toNat + r.val) = font.getD (5 * d.val + r.val) 0

/-! ## Display -/

/-- CLS clears every pixel, raises RDRAW and advances; nothing else changes (44_display.md; D9; general knowledge G24). -/
def Obligations.ClearScreenClearsEveryPixel : Prop :=
  ∀ s : State, ∃ t, exec .cls s = .next t ∧ (∀ px py, t.pixel px py = false) ∧
    { t with fb := s.fb } = { s with rdraw := true, pc := s.pc + 2 }

/-- DRW flips exactly the pixels under a set sprite bit, wrapped; VF is 1 exactly when one of them was set, else 0; RDRAW is
raised; rows out of range draw nothing and are signalled; nothing else changes (44_display.md; D29, D10). -/
def Obligations.DrawXorsTheSpriteAndReportsCollision : Prop :=
  ∀ (s : State) (x y : RegIx) (n : Rows), ∃ t, exec (.drw x y n) s = .next t ∧
    (∀ px py, t.pixel px py = true ↔ (s.pixel px py = true ∧ ¬ SpriteBit s x y n px py) ∨
      (s.pixel px py = false ∧ SpriteBit s x y n px py)) ∧
    ((∃ px py, s.pixel px py = true ∧ SpriteBit s x y n px py) → t.reg vf = 1) ∧
    ((∀ px py, SpriteBit s x y n px py → s.pixel px py = false) → t.reg vf = 0) ∧
    (∀ r, r ≠ vf → t.reg r = s.reg r) ∧
    { t with fb := s.fb, v := s.v } = { s with
      rdraw := true
      pc := s.pc + 2
      conds := s.conds ++ outOfRange ((List.range n.val).map (s.i.toNat + ·)) }

/-- Drawing the same sprite twice at one place restores the framebuffer, and the second draw's VF is 1 exactly when some sprite
bit fell on a pixel that was clear before the first (44_display.md; the corner case's "if the sprite has any set bit" holds over
a clear region: log entry 22). Coordinates in VF are excluded: the first draw overwrites VF, so the place is another. -/
def Obligations.DrawingTwiceRestoresTheScreen : Prop :=
  ∀ (s t u : State) (x y : RegIx) (n : Rows), x ≠ vf → y ≠ vf →
    exec (.drw x y n) s = .next t → exec (.drw x y n) t = .next u →
    (∀ px py, u.pixel px py = s.pixel px py) ∧
    (u.reg vf = 1 ↔ ∃ px py, SpriteBit s x y n px py ∧ s.pixel px py = false)

/-! ## Input and timers -/

/-- SKP and SKNP skip by the key numbered Vx; a number at or above 16 reads as not pressed and is signalled; nothing else changes
(45_input.md; D30). -/
def Obligations.KeySkipsReadTheKeypad : Prop :=
  ∀ (s : State) (x : RegIx) (i : Instr) (skip : Bool),
    (i, skip) ∈ [(Instr.skp x, s.keyPressed (s.reg x).toNat), (Instr.sknp x, !s.keyPressed (s.reg x).toNat)] →
    (∀ k, 16 ≤ k → s.keyPressed k = false) ∧
    ∃ t, exec i s = .next t ∧ t.pc = (if skip then s.pc + 4 else s.pc + 2) ∧
      { t with pc := s.pc } = { s with
        conds := s.conds ++ if (s.reg x).toNat < 16 then [] else [.outOfRangeAccess (.key (s.reg x).toNat)] }

/-- LD Vx, K enters AwaitingKey(x) and advances PC; the keys are not looked at and Vx is not written (45_input.md; D31). -/
def Obligations.KeyWaitSuspendsAndAdvances : Prop :=
  ∀ (s : State) (x : RegIx), exec (.ldVxK x) s = .next { s with run := .awaitingKey x, pc := s.pc + 2 }

/-- The timer moves: Vx from DT, DT from Vx, ST from Vx; nothing else changes (46_timers.md; general knowledge G26). -/
def Obligations.TimerMovesCopyOneByte : Prop :=
  ∀ (s : State) (x : RegIx),
    (∃ t, exec (.ldVxDt x) s = .next t ∧ (∀ r, t.reg r = if r = x then s.dt else s.reg r) ∧ t.pc = s.pc + 2 ∧
      SameOutsideRegisters s t) ∧
    exec (.ldDtVx x) s = .next { s with dt := s.reg x, pc := s.pc + 2 } ∧
    exec (.ldStVx x) s = .next { s with st := s.reg x, pc := s.pc + 2 }

/-- n TICKs count each timer down by n and never below 0, in every run state, and change nothing else (60_exceptions.md
section 5; D7). -/
def Obligations.TicksCountDownToZero : Prop :=
  ∀ (n : Nat) (s : State), (ticks n s).dt.toNat = s.dt.toNat - n ∧ (ticks n s).st.toNat = s.st.toNat - n ∧
    { ticks n s with dt := s.dt, st := s.st } = s

/-! ## Frames of all instructions -/

/-- What no instruction changes but those the rules name: a general register, I, SP, a stack slot, a pixel, RDRAW, DT, ST, RUN;
and no instruction changes a key (10_state.md sections 2 to 5; D6, D9). The last clause is about the model's own draw counter,
which no rule names: only RND advances it (log entry 2). -/
def Obligations.InstructionsWriteOnlyWhatTheRulesName : Prop :=
  ∀ (i : Instr) (s t : State), exec i s = .next t →
    (∀ r, ¬ writesReg i r → t.reg r = s.reg r) ∧
    (¬ writesIndex i → t.i = s.i) ∧
    (¬ writesStack i → t.sp = s.sp) ∧
    (∀ j : Fin 16, (∀ nnn, i = .call nnn → j.val ≠ s.sp.val) → t.stk[j] = s.stk[j]) ∧
    (¬ writesScreen i → (∀ px py, t.pixel px py = s.pixel px py) ∧ t.rdraw = s.rdraw) ∧
    ((∀ x, i ≠ .ldDtVx x) → t.dt = s.dt) ∧ ((∀ x, i ≠ .ldStVx x) → t.st = s.st) ∧
    (¬ writesRun i → t.run = s.run) ∧ (∀ k, t.keyPressed k = s.keyPressed k) ∧
    ((∀ x nn, i ≠ .rnd x nn) → t.draws = s.draws)

/-- Every byte of memory is unchanged but those FX33 and FX55 store, which start at the address the meaning computes from I
(20_memory.md section 1; D10, D28). -/
def Obligations.InstructionsStoreOnlyFromI : Prop :=
  ∀ (i : Instr) (s t : State), s.mem.wf = true → exec i s = .next t →
    ∀ a, (∀ k, k < storedBytes i → a ≠ s.indexed k) → t.readByte a = s.readByte a

/-- Each instruction's class (40_engine_cycle.md, the PC classes; D31): it advances by 2, or skips by 2 or 4, or redirects to the
target its rule computes, or faults with PC unchanged. -/
def Obligations.EveryInstructionMovesThePcByItsClass : Prop :=
  ∀ (i : Instr) (s t : State), exec i s = .next t →
    match i with
    | .jp nnn => t.pc.toNat = nnn.toNat
    | .jpV0 nnn => t.pc.toNat = nnn.toNat + (s.reg 0).toNat
    | .call nnn => if s.sp.val = 16 then t.pc = s.pc else t.pc.toNat = nnn.toNat
    | .ret => if s.sp.val = 0 then t.pc = s.pc else ∃ j : Fin 16, j.val + 1 = s.sp.val ∧ t.pc = s.stk[j] + 2
    | .seImm _ _ | .sneImm _ _ | .seReg _ _ | .sneReg _ _ | .skp _ | .sknp _ => t.pc = s.pc + 2 ∨ t.pc = s.pc + 4
    | .sys _ | .cls | .ldImm _ _ | .addImm _ _ | .ldReg _ _ | .orReg _ _ | .andReg _ _ | .xorReg _ _ | .addReg _ _
    | .subReg _ _ | .shrReg _ _ | .subnReg _ _ | .shlReg _ _ | .ldI _ | .rnd _ _ | .drw _ _ _ | .ldVxDt _ | .ldVxK _
    | .ldDtVx _ | .ldStVx _ | .addI _ | .ldF _ | .ldB _ | .ldMemVx _ | .ldVxMem _ => t.pc = s.pc + 2

/-! ## The host's operations -/

/-- RESET makes every state element its reset value, in every run state (70_reset_and_hazards.md section 1; D2). The draw counter
is not state and goes on (log entry 2). -/
def Obligations.ResetRecreatesTheMachine : Prop :=
  ∀ s : State, perform .reset s = .next ({ State.reset with draws := s.draws }, .done [])

/-- LOAD copies the program to 0x200 up and changes nothing else, bytes below 0x200 among them; a program over 3584 bytes is
refused with ProgramTooLarge and nothing changes; no condition is signalled (70_reset_and_hazards.md section 2;
60_exceptions.md section 1; D35, D32). -/
def Obligations.LoadCopiesTheProgram : Prop :=
  ∀ (s : State) (bytes : List Byte), s.mem.wf = true →
    (bytes.length ≤ 3584 → ∃ t, perform (.load bytes) s = .next (t, .loaded ⟨none, []⟩) ∧
      (∀ a, t.readByte a =
        if 0x200 ≤ a ∧ a < 0x200 + bytes.length then bytes.getD (a - 0x200) 0 else s.readByte a) ∧
      { t with mem := s.mem } = s) ∧
    (3584 < bytes.length → perform (.load bytes) s = .next (s, .loaded ⟨some .programTooLarge, []⟩))

/-- SET_KEY writes one key, or changes nothing and signals a key number at or above 16 (60_exceptions.md section 6; D30). -/
def Obligations.SetKeyWritesOneKey : Prop :=
  ∀ (s : State) (k : Nat) (b : Bool),
    (k < 16 → ∃ t, perform (.setKey k b) s = .next (t, .done []) ∧
      (∀ j, t.keyPressed j = if j = k then b else s.keyPressed j) ∧ { t with key := s.key } = s) ∧
    (16 ≤ k → perform (.setKey k b) s = .next (s, .done [.outOfRangeAccess (.key k)]))

/-- Introspection never mutates and answers the value of the read it names with the conditions it signals; an index out of range
reads 0 and is signalled; the reads of PC, I, SP, RDRAW, DT, ST and RUN give those and signal nothing (60_exceptions.md section 7;
D34). -/
def Obligations.PeeksReadAndNeverMutate : Prop :=
  ∀ s : State,
    (∀ p, perform (.peek p) s = .next (s, .peeked (peek p s).1 (peek p s).2)) ∧
    (∀ i, peek (.reg i) s = (.byte (peekReg i s).1, (peekReg i s).2)) ∧
    (∀ a, peek (.mem a) s = (.byte (peekMem a s).1, (peekMem a s).2)) ∧
    (∀ px py, peek (.pixel px py) s = (.nat (peekPixel px py s).1, (peekPixel px py s).2)) ∧
    peek .pc s = (.word s.pc, []) ∧ peek .i s = (.word s.i, []) ∧ peek .sp s = (.nat s.sp.val, []) ∧
    peek .rdraw s = (.bool s.rdraw, []) ∧ peek .dt s = (.byte s.dt, []) ∧ peek .st s = (.byte s.st, []) ∧
    peek .run s = (.run s.run, []) ∧
    (∀ i : RegIx, peekReg i.val s = (s.reg i, [])) ∧
    (∀ i, 16 ≤ i → peekReg i s = (0, [.outOfRangeAccess (.register i)])) ∧
    (∀ a, peekMem a s = (s.readByte a, outOfRange [a])) ∧ (∀ a, 4096 ≤ a → s.readByte a = 0) ∧
    (∀ (px : Fin 64) (py : Fin 32), peekPixel px.val py.val s = (if s.pixel px py then 1 else 0, [])) ∧
    (∀ px py, 64 ≤ px ∨ 32 ≤ py → peekPixel px py s = (0, [.outOfRangeAccess (.pixel px py)]))

/-- Only STEP and RESET write RUN (10_state.md section 5; D7). -/
def Obligations.OnlyStepAndResetWriteRun : Prop :=
  ∀ (o : Operation) (s t : State) (r : Response), o ≠ .step → o ≠ .reset → perform o s = .next (t, r) → t.run = s.run

/-- Only RESET leaves a fault: over every schedule without it, the fault stays latched and nothing the program could see changes
but memory, the keys and the timers, which LOAD, SET_KEY and TICK write (60_exceptions.md section 2; D7). -/
def Obligations.FaultStaysLatchedUntilReset : Prop :=
  ∀ (ops : List Operation) (s t : State) (rs : List Response) (f : Fault), Operation.reset ∉ ops →
    s.run = .faulted f → runOperations ops s = .next (t, rs) →
    t.run = .faulted f ∧ t.pc = s.pc ∧ t.v = s.v ∧ t.i = s.i ∧ t.sp = s.sp ∧ t.stk = s.stk ∧ t.fb = s.fb ∧
      ∀ r ∈ rs, ∀ q, r = .stepped q → q = ⟨some f, false, []⟩

/-! ## Whole-machine results -/

/-- The reset state meets the invariant `Inv`: no latched fault at odds with the stack and RDRAW raised at most while running
(60_exceptions.md section 2; 10_state.md sections 5 and 6), and memory in its canonical form, which is the model's own
representation (log entry 10). -/
def Obligations.ResetMeetsTheInvariant : Prop := Inv State.reset

/-- Every step keeps the invariant, from every state that meets it: a latched fault that matches the stack, RDRAW only while
running (60_exceptions.md section 2; 10_state.md sections 4 and 5; D7, D9), and memory in its canonical form, which is the model's
own representation (log entry 10). -/
def Obligations.StepKeepsTheInvariant : Prop :=
  ∀ s t : State, Inv s → step s = .next t → Inv t

/-- Every schedule of host operations runs to its end and keeps the invariant (70_reset_and_hazards.md section 4, D36; log
entry 12), whose clause that memory is canonical is the model's own representation (log entry 10). -/
def Obligations.EveryScheduleKeepsTheInvariant : Prop :=
  ∀ (ops : List Operation) (s : State), Inv s →
    ∃ t rs, runOperations ops s = .next (t, rs) ∧ Inv t ∧ rs.length = ops.length

/-- No step's effect on what a program can see depends on ST, RDRAW, a stack slot at or above SP (10_state.md sections 4 and 5) or
the condition list, which the model holds in its state (log entry 1). The two states have drawn the same number of RAND bytes, and
so draw the same byte: this is a statement about runs with equal RAND inputs only (log entry 2). -/
def Obligations.HiddenStateNeverReachesTheProgram : Prop :=
  ∀ s s' t t' : State, SameForProgram s s' → step s = .next t → step s' = .next t' → SameForProgram t t'

/-- At the end of a run at A every step changes nothing but RDRAW, returns Ok with no condition, and the run stays ended
(70_reset_and_hazards.md section 6; D37). -/
def Obligations.EndedRunIsAFixedPoint : Prop :=
  ∀ (a : Addr) (s : State), EndsAt a s →
    ∃ t, step s = .next t ∧ t = { s with rdraw := false, conds := [] } ∧ t.stepResult = ⟨none, false, []⟩ ∧ EndsAt a t
end

