-- ==== Sys2Proof/Laws/Decode.lean ====
section
/-! SUPPORT. Opcode fields and formats as arithmetic on the word's number, and each field read back from each format. -/

namespace Sys2Proof

/-! ## Fields -/

theorem opMajor_val (op : Word) : (opMajor op).val = op.toNat / 4096 := by
  have h := op.isLt
  show (op.extractLsb' 12 4).toNat = _
  rw [BitVec.extractLsb'_toNat, Nat.shiftRight_eq_div_pow]
  omega

theorem opX_val (op : Word) : (opX op).val = op.toNat / 256 % 16 := by
  show (op.extractLsb' 8 4).toNat = _
  rw [BitVec.extractLsb'_toNat, Nat.shiftRight_eq_div_pow]

theorem opY_val (op : Word) : (opY op).val = op.toNat / 16 % 16 := by
  show (op.extractLsb' 4 4).toNat = _
  rw [BitVec.extractLsb'_toNat, Nat.shiftRight_eq_div_pow]

theorem opN_val (op : Word) : (opN op).val = op.toNat % 16 := by
  show (op.extractLsb' 0 4).toNat = _
  rw [BitVec.extractLsb'_toNat, Nat.shiftRight_zero]

theorem opNN_toNat (op : Word) : (opNN op).toNat = op.toNat % 256 := by
  rw [opNN, BitVec.extractLsb'_toNat, Nat.shiftRight_zero]

theorem opNNN_toNat (op : Word) : (opNNN op).toNat = op.toNat % 4096 := by
  rw [opNNN, BitVec.extractLsb'_toNat, Nat.shiftRight_zero]

theorem opMajor_eq_iff (op : Word) (k : Fin 16) : opMajor op = k ↔ op.toNat / 4096 = k.val := by
  rw [← opMajor_val, Fin.ext_iff]

theorem opN_eq_iff (op : Word) (k : Fin 16) : opN op = k ↔ op.toNat % 16 = k.val := by
  rw [← opN_val, Fin.ext_iff]

theorem opNN_eq_iff (op : Word) (c : Byte) : opNN op = c ↔ op.toNat % 256 = c.toNat := by
  rw [← opNN_toNat]
  exact ⟨congrArg BitVec.toNat, BitVec.eq_of_toNat_eq⟩

/-! ## Formats -/

theorem append_toNat {m n : Nat} (a : BitVec m) (b : BitVec n) : (a ++ b).toNat = a.toNat * 2 ^ n + b.toNat := by
  rw [BitVec.toNat_append, ← Nat.shiftLeft_add_eq_or_of_lt b.isLt, Nat.shiftLeft_eq]

theorem formatA_toNat (a : Fin 16) (nnn : Addr) : (formatA a nnn).toNat = a.val * 4096 + nnn.toNat :=
  append_toNat (nibble a) nnn

theorem formatXNN_toNat (a : Fin 16) (x : RegIx) (nn : Byte) :
    (formatXNN a x nn).toNat = a.val * 4096 + x.val * 256 + nn.toNat := by
  have h := append_toNat (nibble a ++ nibble x) nn
  rw [append_toNat (nibble a) (nibble x)] at h
  have e : (formatXNN a x nn).toNat = (nibble a ++ nibble x ++ nn).toNat := rfl
  have ha : (nibble a).toNat = a.val := rfl
  have hx : (nibble x).toNat = x.val := rfl
  omega

theorem formatXYN_toNat (a : Fin 16) (x y : RegIx) (n : Fin 16) :
    (formatXYN a x y n).toNat = a.val * 4096 + x.val * 256 + y.val * 16 + n.val := by
  have h := append_toNat (nibble a ++ nibble x ++ nibble y) (nibble n)
  rw [append_toNat (nibble a ++ nibble x) (nibble y), append_toNat (nibble a) (nibble x)] at h
  have e : (formatXYN a x y n).toNat = (nibble a ++ nibble x ++ nibble y ++ nibble n).toNat := rfl
  have ha : (nibble a).toNat = a.val := rfl
  have hx : (nibble x).toNat = x.val := rfl
  have hy : (nibble y).toNat = y.val := rfl
  have hn : (nibble n).toNat = n.val := rfl
  omega

/-! ## Fields of formats -/

@[simp] theorem opMajor_formatA (a : Fin 16) (nnn : Addr) : opMajor (formatA a nnn) = a := by
  have := nnn.isLt
  exact Fin.ext (by rw [opMajor_val, formatA_toNat]; omega)

@[simp] theorem opNNN_formatA (a : Fin 16) (nnn : Addr) : opNNN (formatA a nnn) = nnn := by
  have := nnn.isLt
  exact BitVec.eq_of_toNat_eq (by rw [opNNN_toNat, formatA_toNat]; omega)

@[simp] theorem opMajor_formatXNN (a : Fin 16) (x : RegIx) (nn : Byte) : opMajor (formatXNN a x nn) = a := by
  have := nn.isLt
  exact Fin.ext (by rw [opMajor_val, formatXNN_toNat]; omega)

@[simp] theorem opX_formatXNN (a : Fin 16) (x : RegIx) (nn : Byte) : opX (formatXNN a x nn) = x := by
  have := nn.isLt
  exact Fin.ext (by rw [opX_val, formatXNN_toNat]; omega)

@[simp] theorem opNN_formatXNN (a : Fin 16) (x : RegIx) (nn : Byte) : opNN (formatXNN a x nn) = nn := by
  have := nn.isLt
  exact BitVec.eq_of_toNat_eq (by rw [opNN_toNat, formatXNN_toNat]; omega)

@[simp] theorem opMajor_formatXYN (a : Fin 16) (x y : RegIx) (n : Fin 16) : opMajor (formatXYN a x y n) = a :=
  Fin.ext (by rw [opMajor_val, formatXYN_toNat]; omega)

@[simp] theorem opX_formatXYN (a : Fin 16) (x y : RegIx) (n : Fin 16) : opX (formatXYN a x y n) = x :=
  Fin.ext (by rw [opX_val, formatXYN_toNat]; omega)

@[simp] theorem opY_formatXYN (a : Fin 16) (x y : RegIx) (n : Fin 16) : opY (formatXYN a x y n) = y :=
  Fin.ext (by rw [opY_val, formatXYN_toNat]; omega)

@[simp] theorem opN_formatXYN (a : Fin 16) (x y : RegIx) (n : Fin 16) : opN (formatXYN a x y n) = n :=
  Fin.ext (by rw [opN_val, formatXYN_toNat]; omega)

end Sys2Proof
end

