-- ==== Sys2Proof/Laws/Memory.lean ====
section
/-! SUPPORT. The memory list: reading after writing, and that every operation keeps the canonical form. -/

namespace Sys2Proof.Machine

@[simp] theorem read_nil (a : Nat) : Memory.read [] a = resetByte a := rfl

theorem wfFrom_cons (lo k : Nat) (b : Byte) (rest : Memory) :
    Memory.wfFrom lo ((k, b) :: rest) = true ↔
      lo ≤ k ∧ k < 4096 ∧ b ≠ resetByte k ∧ Memory.wfFrom (k + 1) rest = true := by
  simp [Memory.wfFrom, and_assoc]

theorem wfFrom_mono {lo lo' : Nat} (h : lo' ≤ lo) : ∀ {m : Memory}, Memory.wfFrom lo m = true → Memory.wfFrom lo' m = true
  | [], _ => rfl
  | (k, b) :: rest, hm => by
    rw [wfFrom_cons] at hm ⊢
    exact ⟨h.trans hm.1, hm.2⟩

/-- Below every listed address a byte reads as the reset contents. -/
theorem read_of_lt_wfFrom {lo a : Nat} (ha : a < lo) : ∀ {m : Memory}, Memory.wfFrom lo m = true → m.read a = resetByte a
  | [], _ => rfl
  | (k, b) :: rest, hm => by
    rw [wfFrom_cons] at hm
    have hne : a ≠ k := by omega
    simp only [Memory.read, if_neg hne]
    exact read_of_lt_wfFrom (by omega) hm.2.2.2

theorem wfFrom_write {lo a : Nat} (b : Byte) (hlo : lo ≤ a) (ha : a < 4096) :
    ∀ {m : Memory}, Memory.wfFrom lo m = true → Memory.wfFrom lo (m.write a b) = true
  | [], _ => by
    by_cases hb : b = resetByte a
    · simp [Memory.write, hb, Memory.wfFrom]
    · simp [Memory.write, hb, hlo, ha, Memory.wfFrom]
  | (k, c) :: rest, hm => by
    obtain ⟨h1, h2, h3, h4⟩ := (wfFrom_cons ..).1 hm
    unfold Memory.write
    split
    · next hk =>
      rw [wfFrom_cons]
      exact ⟨h1, h2, h3, wfFrom_write b (by omega) ha h4⟩
    · split
      · next hk =>
        subst hk
        split
        · exact wfFrom_mono (by omega) h4
        · next hb => rw [wfFrom_cons]; exact ⟨hlo, ha, hb, h4⟩
      · split
        · exact hm
        · next hb =>
          rw [wfFrom_cons]
          exact ⟨hlo, ha, hb, (wfFrom_cons ..).2 ⟨by omega, h2, h3, h4⟩⟩

/-- Writing an address of memory keeps the canonical form. -/
theorem wf_write {m : Memory} {a : Nat} (b : Byte) (ha : a < 4096) (hm : m.wf = true) : (m.write a b).wf = true :=
  wfFrom_write b (Nat.zero_le a) ha hm

theorem read_write_of_wfFrom {lo a : Nat} (a' : Nat) (b : Byte) :
    ∀ {m : Memory}, Memory.wfFrom lo m = true → (m.write a b).read a' = if a' = a then b else m.read a'
  | [], _ => by
    by_cases hb : b = resetByte a
    · by_cases h : a' = a <;> simp [Memory.write, hb, h]
    · by_cases h : a' = a <;> simp [Memory.write, Memory.read, hb, h]
  | (k, c) :: rest, hm => by
    obtain ⟨h1, h2, h3, h4⟩ := (wfFrom_cons ..).1 hm
    have below : ∀ x, x ≤ k → Memory.read rest x = resetByte x := fun x hx => read_of_lt_wfFrom (by omega) h4
    unfold Memory.write
    by_cases hk : k < a
    · have ih := read_write_of_wfFrom (a := a) a' b h4
      simp only [if_pos hk, Memory.read, ih]
      by_cases h : a' = k
      · have : a' ≠ a := by omega
        simp [h, show k ≠ a by omega]
      · simp [h]
    · by_cases hak : a = k
      · subst hak
        by_cases hb : b = resetByte a
        · by_cases h : a' = a
          · subst h; simp [hb, below a' (Nat.le_refl _)]
          · simp [hb, Memory.read, h]
        · by_cases h : a' = a <;> simp [hb, Memory.read, h]
      · by_cases hb : b = resetByte a
        · by_cases h : a' = a
          · subst h; simp [hk, hak, hb, Memory.read, below a' (by omega)]
          · simp [hk, hak, hb, h]
        · by_cases h : a' = a <;> simp [hk, hak, hb, Memory.read, h]

/-- Reading after writing: the written byte at its address, every other byte as before. -/
theorem read_write {m : Memory} (hm : m.wf = true) (a a' : Nat) (b : Byte) :
    (m.write a b).read a' = if a' = a then b else m.read a' := read_write_of_wfFrom a' b hm

/-- Writing consecutive bytes inside memory keeps the canonical form. -/
theorem wf_writeBytes : ∀ (bytes : List Byte) {m : Memory} {a : Nat}, a + bytes.length ≤ 4096 → m.wf = true →
    (m.writeBytes a bytes).wf = true
  | [], _, _, _, hm => hm
  | b :: rest, m, a, h, hm => by
    rw [List.length_cons] at h
    exact wf_writeBytes rest (by omega) (wf_write b (by omega) hm)

/-- Reading after writing consecutive bytes. -/
theorem read_writeBytes : ∀ (bytes : List Byte) {m : Memory} {a : Nat} (a' : Nat), a + bytes.length ≤ 4096 → m.wf = true →
    (m.writeBytes a bytes).read a' = if a ≤ a' ∧ a' < a + bytes.length then bytes.getD (a' - a) 0 else m.read a'
  | [], m, a, a', _, _ => by
    rw [if_neg (by simp)]; rfl
  | b :: rest, m, a, a', h, hm => by
    rw [List.length_cons] at h
    have ih := read_writeBytes rest (m := m.write a b) (a := a + 1) a' (by omega) (wf_write b (by omega) hm)
    simp only [Memory.writeBytes, ih, List.length_cons, read_write hm]
    by_cases h1 : a' = a
    · subst h1; simp
    · by_cases h2 : a + 1 ≤ a' ∧ a' < a + 1 + rest.length
      · obtain ⟨k, hk⟩ : ∃ k, a' - a = k + 1 := ⟨a' - a - 1, by omega⟩
        have hk' : a' - (a + 1) = k := by omega
        rw [if_pos h2, if_pos (by omega), hk, hk', List.getD_cons_succ]
      · rw [if_neg h2, if_neg h1, if_neg (by omega)]

end Sys2Proof.Machine
end

