-- ==== Sys2Proof/Laws/State.lean ====
section
/-! SUPPORT. One lemma per field per update of State, each true by definition, so that no proof unfolds a record update. -/

namespace Sys2Proof.Machine

variable (s : State)

/-! ## Widths and ranges (00_scope.md R6) -/

/-- The types of Word.lean have the widths R6 gives the registers, timers and stack entries. -/
theorem widths_agree :
    Byte = BitVec Config.regWidth ∧ Byte = BitVec Config.timerWidth ∧ Word = BitVec Config.iWidth ∧
    Word = BitVec Config.pcWidth ∧ Word = BitVec Config.stkWidth ∧ RegIx = Fin Config.nRegs ∧
    Rows = Fin (Config.spriteMaxHeight + 1) := ⟨rfl, rfl, rfl, rfl, rfl, rfl, rfl⟩

theorem sp_range : Config.spMin ≤ s.sp.val ∧ s.sp.val ≤ Config.spMax := ⟨Nat.zero_le _, Nat.le_of_lt_succ s.sp.isLt⟩

theorem rows_range (n : Rows) : Config.spriteMinHeight ≤ n.val ∧ n.val ≤ Config.spriteMaxHeight :=
  ⟨Nat.zero_le _, Nat.le_of_lt_succ n.isLt⟩

/-! ## State.setReg -/

@[simp] theorem setReg_mem (x : RegIx) (b : Byte) : (s.setReg x b).mem = s.mem := rfl
@[simp] theorem setReg_v (x : RegIx) (b : Byte) : (s.setReg x b).v = s.v.set x b := rfl
@[simp] theorem setReg_i (x : RegIx) (b : Byte) : (s.setReg x b).i = s.i := rfl
@[simp] theorem setReg_pc (x : RegIx) (b : Byte) : (s.setReg x b).pc = s.pc := rfl
@[simp] theorem setReg_sp (x : RegIx) (b : Byte) : (s.setReg x b).sp = s.sp := rfl
@[simp] theorem setReg_stk (x : RegIx) (b : Byte) : (s.setReg x b).stk = s.stk := rfl
@[simp] theorem setReg_fb (x : RegIx) (b : Byte) : (s.setReg x b).fb = s.fb := rfl
@[simp] theorem setReg_dt (x : RegIx) (b : Byte) : (s.setReg x b).dt = s.dt := rfl
@[simp] theorem setReg_st (x : RegIx) (b : Byte) : (s.setReg x b).st = s.st := rfl
@[simp] theorem setReg_key (x : RegIx) (b : Byte) : (s.setReg x b).key = s.key := rfl
@[simp] theorem setReg_rdraw (x : RegIx) (b : Byte) : (s.setReg x b).rdraw = s.rdraw := rfl
@[simp] theorem setReg_run (x : RegIx) (b : Byte) : (s.setReg x b).run = s.run := rfl
@[simp] theorem setReg_conds (x : RegIx) (b : Byte) : (s.setReg x b).conds = s.conds := rfl
@[simp] theorem setReg_draws (x : RegIx) (b : Byte) : (s.setReg x b).draws = s.draws := rfl

/-! ## State.signal -/

@[simp] theorem signal_mem (c : Condition) : (s.signal c).mem = s.mem := rfl
@[simp] theorem signal_v (c : Condition) : (s.signal c).v = s.v := rfl
@[simp] theorem signal_i (c : Condition) : (s.signal c).i = s.i := rfl
@[simp] theorem signal_pc (c : Condition) : (s.signal c).pc = s.pc := rfl
@[simp] theorem signal_sp (c : Condition) : (s.signal c).sp = s.sp := rfl
@[simp] theorem signal_stk (c : Condition) : (s.signal c).stk = s.stk := rfl
@[simp] theorem signal_fb (c : Condition) : (s.signal c).fb = s.fb := rfl
@[simp] theorem signal_dt (c : Condition) : (s.signal c).dt = s.dt := rfl
@[simp] theorem signal_st (c : Condition) : (s.signal c).st = s.st := rfl
@[simp] theorem signal_key (c : Condition) : (s.signal c).key = s.key := rfl
@[simp] theorem signal_rdraw (c : Condition) : (s.signal c).rdraw = s.rdraw := rfl
@[simp] theorem signal_run (c : Condition) : (s.signal c).run = s.run := rfl
@[simp] theorem signal_conds (c : Condition) : (s.signal c).conds = s.conds ++ [c] := rfl
@[simp] theorem signal_draws (c : Condition) : (s.signal c).draws = s.draws := rfl

/-! ## State.setPixel -/

@[simp] theorem setPixel_mem (px : Fin 64) (py : Fin 32) (b : Bool) : (s.setPixel px py b).mem = s.mem := rfl
@[simp] theorem setPixel_v (px : Fin 64) (py : Fin 32) (b : Bool) : (s.setPixel px py b).v = s.v := rfl
@[simp] theorem setPixel_i (px : Fin 64) (py : Fin 32) (b : Bool) : (s.setPixel px py b).i = s.i := rfl
@[simp] theorem setPixel_pc (px : Fin 64) (py : Fin 32) (b : Bool) : (s.setPixel px py b).pc = s.pc := rfl
@[simp] theorem setPixel_sp (px : Fin 64) (py : Fin 32) (b : Bool) : (s.setPixel px py b).sp = s.sp := rfl
@[simp] theorem setPixel_stk (px : Fin 64) (py : Fin 32) (b : Bool) : (s.setPixel px py b).stk = s.stk := rfl
@[simp] theorem setPixel_fb (px : Fin 64) (py : Fin 32) (b : Bool) : (s.setPixel px py b).fb = s.fb.set px (s.fb[px].set py b) := rfl
@[simp] theorem setPixel_dt (px : Fin 64) (py : Fin 32) (b : Bool) : (s.setPixel px py b).dt = s.dt := rfl
@[simp] theorem setPixel_st (px : Fin 64) (py : Fin 32) (b : Bool) : (s.setPixel px py b).st = s.st := rfl
@[simp] theorem setPixel_key (px : Fin 64) (py : Fin 32) (b : Bool) : (s.setPixel px py b).key = s.key := rfl
@[simp] theorem setPixel_rdraw (px : Fin 64) (py : Fin 32) (b : Bool) : (s.setPixel px py b).rdraw = s.rdraw := rfl
@[simp] theorem setPixel_run (px : Fin 64) (py : Fin 32) (b : Bool) : (s.setPixel px py b).run = s.run := rfl
@[simp] theorem setPixel_conds (px : Fin 64) (py : Fin 32) (b : Bool) : (s.setPixel px py b).conds = s.conds := rfl
@[simp] theorem setPixel_draws (px : Fin 64) (py : Fin 32) (b : Bool) : (s.setPixel px py b).draws = s.draws := rfl

/-! ## State.setI -/

@[simp] theorem setI_mem (w : Word) : (s.setI w).mem = s.mem := rfl
@[simp] theorem setI_v (w : Word) : (s.setI w).v = s.v := rfl
@[simp] theorem setI_i (w : Word) : (s.setI w).i = w := rfl
@[simp] theorem setI_pc (w : Word) : (s.setI w).pc = s.pc := rfl
@[simp] theorem setI_sp (w : Word) : (s.setI w).sp = s.sp := rfl
@[simp] theorem setI_stk (w : Word) : (s.setI w).stk = s.stk := rfl
@[simp] theorem setI_fb (w : Word) : (s.setI w).fb = s.fb := rfl
@[simp] theorem setI_dt (w : Word) : (s.setI w).dt = s.dt := rfl
@[simp] theorem setI_st (w : Word) : (s.setI w).st = s.st := rfl
@[simp] theorem setI_key (w : Word) : (s.setI w).key = s.key := rfl
@[simp] theorem setI_rdraw (w : Word) : (s.setI w).rdraw = s.rdraw := rfl
@[simp] theorem setI_run (w : Word) : (s.setI w).run = s.run := rfl
@[simp] theorem setI_conds (w : Word) : (s.setI w).conds = s.conds := rfl
@[simp] theorem setI_draws (w : Word) : (s.setI w).draws = s.draws := rfl

/-! ## advance -/

@[simp] theorem advance_mem : (advance s).mem = s.mem := rfl
@[simp] theorem advance_v : (advance s).v = s.v := rfl
@[simp] theorem advance_i : (advance s).i = s.i := rfl
@[simp] theorem advance_pc : (advance s).pc = s.pc + 2 := rfl
@[simp] theorem advance_sp : (advance s).sp = s.sp := rfl
@[simp] theorem advance_stk : (advance s).stk = s.stk := rfl
@[simp] theorem advance_fb : (advance s).fb = s.fb := rfl
@[simp] theorem advance_dt : (advance s).dt = s.dt := rfl
@[simp] theorem advance_st : (advance s).st = s.st := rfl
@[simp] theorem advance_key : (advance s).key = s.key := rfl
@[simp] theorem advance_rdraw : (advance s).rdraw = s.rdraw := rfl
@[simp] theorem advance_run : (advance s).run = s.run := rfl
@[simp] theorem advance_conds : (advance s).conds = s.conds := rfl
@[simp] theorem advance_draws : (advance s).draws = s.draws := rfl

/-! ## jumpTo -/

@[simp] theorem jumpTo_mem (w : Word) : (jumpTo w s).mem = s.mem := rfl
@[simp] theorem jumpTo_v (w : Word) : (jumpTo w s).v = s.v := rfl
@[simp] theorem jumpTo_i (w : Word) : (jumpTo w s).i = s.i := rfl
@[simp] theorem jumpTo_pc (w : Word) : (jumpTo w s).pc = w := rfl
@[simp] theorem jumpTo_sp (w : Word) : (jumpTo w s).sp = s.sp := rfl
@[simp] theorem jumpTo_stk (w : Word) : (jumpTo w s).stk = s.stk := rfl
@[simp] theorem jumpTo_fb (w : Word) : (jumpTo w s).fb = s.fb := rfl
@[simp] theorem jumpTo_dt (w : Word) : (jumpTo w s).dt = s.dt := rfl
@[simp] theorem jumpTo_st (w : Word) : (jumpTo w s).st = s.st := rfl
@[simp] theorem jumpTo_key (w : Word) : (jumpTo w s).key = s.key := rfl
@[simp] theorem jumpTo_rdraw (w : Word) : (jumpTo w s).rdraw = s.rdraw := rfl
@[simp] theorem jumpTo_run (w : Word) : (jumpTo w s).run = s.run := rfl
@[simp] theorem jumpTo_conds (w : Word) : (jumpTo w s).conds = s.conds := rfl
@[simp] theorem jumpTo_draws (w : Word) : (jumpTo w s).draws = s.draws := rfl

/-! ## push -/

@[simp] theorem push_mem (w : Word) (h : s.sp.val < Config.stackDepth) : (push w s h).mem = s.mem := rfl
@[simp] theorem push_v (w : Word) (h : s.sp.val < Config.stackDepth) : (push w s h).v = s.v := rfl
@[simp] theorem push_i (w : Word) (h : s.sp.val < Config.stackDepth) : (push w s h).i = s.i := rfl
@[simp] theorem push_pc (w : Word) (h : s.sp.val < Config.stackDepth) : (push w s h).pc = s.pc := rfl
@[simp] theorem push_sp (w : Word) (h : s.sp.val < Config.stackDepth) : (push w s h).sp = ⟨s.sp.val + 1, Nat.succ_lt_succ h⟩ := rfl
@[simp] theorem push_stk (w : Word) (h : s.sp.val < Config.stackDepth) : (push w s h).stk = s.stk.set s.sp.val w h := rfl
@[simp] theorem push_fb (w : Word) (h : s.sp.val < Config.stackDepth) : (push w s h).fb = s.fb := rfl
@[simp] theorem push_dt (w : Word) (h : s.sp.val < Config.stackDepth) : (push w s h).dt = s.dt := rfl
@[simp] theorem push_st (w : Word) (h : s.sp.val < Config.stackDepth) : (push w s h).st = s.st := rfl
@[simp] theorem push_key (w : Word) (h : s.sp.val < Config.stackDepth) : (push w s h).key = s.key := rfl
@[simp] theorem push_rdraw (w : Word) (h : s.sp.val < Config.stackDepth) : (push w s h).rdraw = s.rdraw := rfl
@[simp] theorem push_run (w : Word) (h : s.sp.val < Config.stackDepth) : (push w s h).run = s.run := rfl
@[simp] theorem push_conds (w : Word) (h : s.sp.val < Config.stackDepth) : (push w s h).conds = s.conds := rfl
@[simp] theorem push_draws (w : Word) (h : s.sp.val < Config.stackDepth) : (push w s h).draws = s.draws := rfl

/-! ## pop -/

@[simp] theorem pop_mem : (pop s).mem = s.mem := rfl
@[simp] theorem pop_v : (pop s).v = s.v := rfl
@[simp] theorem pop_i : (pop s).i = s.i := rfl
@[simp] theorem pop_pc : (pop s).pc = s.pc := rfl
@[simp] theorem pop_sp : (pop s).sp = ⟨s.sp.val - 1, by omega⟩ := rfl
@[simp] theorem pop_stk : (pop s).stk = s.stk := rfl
@[simp] theorem pop_fb : (pop s).fb = s.fb := rfl
@[simp] theorem pop_dt : (pop s).dt = s.dt := rfl
@[simp] theorem pop_st : (pop s).st = s.st := rfl
@[simp] theorem pop_key : (pop s).key = s.key := rfl
@[simp] theorem pop_rdraw : (pop s).rdraw = s.rdraw := rfl
@[simp] theorem pop_run : (pop s).run = s.run := rfl
@[simp] theorem pop_conds : (pop s).conds = s.conds := rfl
@[simp] theorem pop_draws : (pop s).draws = s.draws := rfl

/-! ## takeFault -/

@[simp] theorem takeFault_mem (f : Fault) : (takeFault f s).mem = s.mem := rfl
@[simp] theorem takeFault_v (f : Fault) : (takeFault f s).v = s.v := rfl
@[simp] theorem takeFault_i (f : Fault) : (takeFault f s).i = s.i := rfl
@[simp] theorem takeFault_pc (f : Fault) : (takeFault f s).pc = s.pc := rfl
@[simp] theorem takeFault_sp (f : Fault) : (takeFault f s).sp = s.sp := rfl
@[simp] theorem takeFault_stk (f : Fault) : (takeFault f s).stk = s.stk := rfl
@[simp] theorem takeFault_fb (f : Fault) : (takeFault f s).fb = s.fb := rfl
@[simp] theorem takeFault_dt (f : Fault) : (takeFault f s).dt = s.dt := rfl
@[simp] theorem takeFault_st (f : Fault) : (takeFault f s).st = s.st := rfl
@[simp] theorem takeFault_key (f : Fault) : (takeFault f s).key = s.key := rfl
@[simp] theorem takeFault_rdraw (f : Fault) : (takeFault f s).rdraw = s.rdraw := rfl
@[simp] theorem takeFault_run (f : Fault) : (takeFault f s).run = .faulted f := rfl
@[simp] theorem takeFault_conds (f : Fault) : (takeFault f s).conds = s.conds := rfl
@[simp] theorem takeFault_draws (f : Fault) : (takeFault f s).draws = s.draws := rfl

/-! ## raiseRedraw -/

@[simp] theorem raiseRedraw_mem : (raiseRedraw s).mem = s.mem := rfl
@[simp] theorem raiseRedraw_v : (raiseRedraw s).v = s.v := rfl
@[simp] theorem raiseRedraw_i : (raiseRedraw s).i = s.i := rfl
@[simp] theorem raiseRedraw_pc : (raiseRedraw s).pc = s.pc := rfl
@[simp] theorem raiseRedraw_sp : (raiseRedraw s).sp = s.sp := rfl
@[simp] theorem raiseRedraw_stk : (raiseRedraw s).stk = s.stk := rfl
@[simp] theorem raiseRedraw_fb : (raiseRedraw s).fb = s.fb := rfl
@[simp] theorem raiseRedraw_dt : (raiseRedraw s).dt = s.dt := rfl
@[simp] theorem raiseRedraw_st : (raiseRedraw s).st = s.st := rfl
@[simp] theorem raiseRedraw_key : (raiseRedraw s).key = s.key := rfl
@[simp] theorem raiseRedraw_rdraw : (raiseRedraw s).rdraw = true := rfl
@[simp] theorem raiseRedraw_run : (raiseRedraw s).run = s.run := rfl
@[simp] theorem raiseRedraw_conds : (raiseRedraw s).conds = s.conds := rfl
@[simp] theorem raiseRedraw_draws : (raiseRedraw s).draws = s.draws := rfl

/-! ## beginStep -/

@[simp] theorem beginStep_mem : (beginStep s).mem = s.mem := rfl
@[simp] theorem beginStep_v : (beginStep s).v = s.v := rfl
@[simp] theorem beginStep_i : (beginStep s).i = s.i := rfl
@[simp] theorem beginStep_pc : (beginStep s).pc = s.pc := rfl
@[simp] theorem beginStep_sp : (beginStep s).sp = s.sp := rfl
@[simp] theorem beginStep_stk : (beginStep s).stk = s.stk := rfl
@[simp] theorem beginStep_fb : (beginStep s).fb = s.fb := rfl
@[simp] theorem beginStep_dt : (beginStep s).dt = s.dt := rfl
@[simp] theorem beginStep_st : (beginStep s).st = s.st := rfl
@[simp] theorem beginStep_key : (beginStep s).key = s.key := rfl
@[simp] theorem beginStep_rdraw : (beginStep s).rdraw = false := rfl
@[simp] theorem beginStep_run : (beginStep s).run = s.run := rfl
@[simp] theorem beginStep_conds : (beginStep s).conds = [] := rfl
@[simp] theorem beginStep_draws : (beginStep s).draws = s.draws := rfl

/-! ## The accessors under the updates that leave their field alone -/

@[simp] theorem setReg_pixel (x : RegIx) (b : Byte) (qx : Fin 64) (qy : Fin 32) : (s.setReg x b).pixel qx qy = s.pixel qx qy := rfl
@[simp] theorem setReg_readByte (x : RegIx) (b : Byte) (a : Nat) : (s.setReg x b).readByte a = s.readByte a := rfl
@[simp] theorem setReg_keyPressed (x : RegIx) (b : Byte) (k : Nat) : (s.setReg x b).keyPressed k = s.keyPressed k := rfl
@[simp] theorem setReg_indexed (x : RegIx) (b : Byte) (k : Nat) : (s.setReg x b).indexed k = s.indexed k := rfl
@[simp] theorem signal_reg (c : Condition) (r : RegIx) : (s.signal c).reg r = s.reg r := rfl
@[simp] theorem signal_pixel (c : Condition) (qx : Fin 64) (qy : Fin 32) : (s.signal c).pixel qx qy = s.pixel qx qy := rfl
@[simp] theorem signal_readByte (c : Condition) (a : Nat) : (s.signal c).readByte a = s.readByte a := rfl
@[simp] theorem signal_keyPressed (c : Condition) (k : Nat) : (s.signal c).keyPressed k = s.keyPressed k := rfl
@[simp] theorem signal_indexed (c : Condition) (k : Nat) : (s.signal c).indexed k = s.indexed k := rfl
@[simp] theorem setPixel_reg (px : Fin 64) (py : Fin 32) (b : Bool) (r : RegIx) : (s.setPixel px py b).reg r = s.reg r := rfl
@[simp] theorem setPixel_readByte (px : Fin 64) (py : Fin 32) (b : Bool) (a : Nat) : (s.setPixel px py b).readByte a = s.readByte a := rfl
@[simp] theorem setPixel_keyPressed (px : Fin 64) (py : Fin 32) (b : Bool) (k : Nat) : (s.setPixel px py b).keyPressed k = s.keyPressed k := rfl
@[simp] theorem setPixel_indexed (px : Fin 64) (py : Fin 32) (b : Bool) (k : Nat) : (s.setPixel px py b).indexed k = s.indexed k := rfl
@[simp] theorem setI_reg (w : Word) (r : RegIx) : (s.setI w).reg r = s.reg r := rfl
@[simp] theorem setI_pixel (w : Word) (qx : Fin 64) (qy : Fin 32) : (s.setI w).pixel qx qy = s.pixel qx qy := rfl
@[simp] theorem setI_readByte (w : Word) (a : Nat) : (s.setI w).readByte a = s.readByte a := rfl
@[simp] theorem setI_keyPressed (w : Word) (k : Nat) : (s.setI w).keyPressed k = s.keyPressed k := rfl
@[simp] theorem advance_reg (r : RegIx) : (advance s).reg r = s.reg r := rfl
@[simp] theorem advance_pixel (qx : Fin 64) (qy : Fin 32) : (advance s).pixel qx qy = s.pixel qx qy := rfl
@[simp] theorem advance_readByte (a : Nat) : (advance s).readByte a = s.readByte a := rfl
@[simp] theorem advance_keyPressed (k : Nat) : (advance s).keyPressed k = s.keyPressed k := rfl
@[simp] theorem advance_indexed (k : Nat) : (advance s).indexed k = s.indexed k := rfl
@[simp] theorem jumpTo_reg (w : Word) (r : RegIx) : (jumpTo w s).reg r = s.reg r := rfl
@[simp] theorem jumpTo_pixel (w : Word) (qx : Fin 64) (qy : Fin 32) : (jumpTo w s).pixel qx qy = s.pixel qx qy := rfl
@[simp] theorem jumpTo_readByte (w : Word) (a : Nat) : (jumpTo w s).readByte a = s.readByte a := rfl
@[simp] theorem jumpTo_keyPressed (w : Word) (k : Nat) : (jumpTo w s).keyPressed k = s.keyPressed k := rfl
@[simp] theorem jumpTo_indexed (w : Word) (k : Nat) : (jumpTo w s).indexed k = s.indexed k := rfl
@[simp] theorem push_reg (w : Word) (h : s.sp.val < Config.stackDepth) (r : RegIx) : (push w s h).reg r = s.reg r := rfl
@[simp] theorem push_pixel (w : Word) (h : s.sp.val < Config.stackDepth) (qx : Fin 64) (qy : Fin 32) : (push w s h).pixel qx qy = s.pixel qx qy := rfl
@[simp] theorem push_readByte (w : Word) (h : s.sp.val < Config.stackDepth) (a : Nat) : (push w s h).readByte a = s.readByte a := rfl
@[simp] theorem push_keyPressed (w : Word) (h : s.sp.val < Config.stackDepth) (k : Nat) : (push w s h).keyPressed k = s.keyPressed k := rfl
@[simp] theorem push_indexed (w : Word) (h : s.sp.val < Config.stackDepth) (k : Nat) : (push w s h).indexed k = s.indexed k := rfl
@[simp] theorem pop_reg (r : RegIx) : (pop s).reg r = s.reg r := rfl
@[simp] theorem pop_pixel (qx : Fin 64) (qy : Fin 32) : (pop s).pixel qx qy = s.pixel qx qy := rfl
@[simp] theorem pop_readByte (a : Nat) : (pop s).readByte a = s.readByte a := rfl
@[simp] theorem pop_keyPressed (k : Nat) : (pop s).keyPressed k = s.keyPressed k := rfl
@[simp] theorem pop_indexed (k : Nat) : (pop s).indexed k = s.indexed k := rfl
@[simp] theorem takeFault_reg (f : Fault) (r : RegIx) : (takeFault f s).reg r = s.reg r := rfl
@[simp] theorem takeFault_pixel (f : Fault) (qx : Fin 64) (qy : Fin 32) : (takeFault f s).pixel qx qy = s.pixel qx qy := rfl
@[simp] theorem takeFault_readByte (f : Fault) (a : Nat) : (takeFault f s).readByte a = s.readByte a := rfl
@[simp] theorem takeFault_keyPressed (f : Fault) (k : Nat) : (takeFault f s).keyPressed k = s.keyPressed k := rfl
@[simp] theorem takeFault_indexed (f : Fault) (k : Nat) : (takeFault f s).indexed k = s.indexed k := rfl
@[simp] theorem raiseRedraw_reg (r : RegIx) : (raiseRedraw s).reg r = s.reg r := rfl
@[simp] theorem raiseRedraw_pixel (qx : Fin 64) (qy : Fin 32) : (raiseRedraw s).pixel qx qy = s.pixel qx qy := rfl
@[simp] theorem raiseRedraw_readByte (a : Nat) : (raiseRedraw s).readByte a = s.readByte a := rfl
@[simp] theorem raiseRedraw_keyPressed (k : Nat) : (raiseRedraw s).keyPressed k = s.keyPressed k := rfl
@[simp] theorem raiseRedraw_indexed (k : Nat) : (raiseRedraw s).indexed k = s.indexed k := rfl
@[simp] theorem beginStep_reg (r : RegIx) : (beginStep s).reg r = s.reg r := rfl
@[simp] theorem beginStep_pixel (qx : Fin 64) (qy : Fin 32) : (beginStep s).pixel qx qy = s.pixel qx qy := rfl
@[simp] theorem beginStep_readByte (a : Nat) : (beginStep s).readByte a = s.readByte a := rfl
@[simp] theorem beginStep_keyPressed (k : Nat) : (beginStep s).keyPressed k = s.keyPressed k := rfl
@[simp] theorem beginStep_indexed (k : Nat) : (beginStep s).indexed k = s.indexed k := rfl

/-! ## A register, a pixel, I after it is written -/

theorem setReg_reg (x r : RegIx) (b : Byte) : (s.setReg x b).reg r = if r = x then b else s.reg r := by
  unfold State.setReg State.reg
  simp only [Fin.getElem_fin, Vector.getElem_set]
  by_cases h : r = x
  · simp [h]
  · simp [h, Fin.val_ne_of_ne (Ne.symm h)]

@[simp] theorem setReg_reg_self (x : RegIx) (b : Byte) : (s.setReg x b).reg x = b := by simp [setReg_reg]

theorem setPixel_pixel (px qx : Fin 64) (py qy : Fin 32) (b : Bool) :
    (s.setPixel px py b).pixel qx qy = if qx = px ∧ qy = py then b else s.pixel qx qy := by
  unfold State.setPixel State.pixel
  simp only [Fin.getElem_fin, Vector.getElem_set]
  by_cases hx : qx = px
  · subst hx
    by_cases hy : qy = py
    · simp [hy]
    · simp [hy, Fin.val_ne_of_ne (Ne.symm hy)]
  · simp [hx, Fin.val_ne_of_ne (Ne.symm hx)]

/-- A screen is its pixels. -/
theorem fb_ext (s t : State) (h : ∀ px py, t.pixel px py = s.pixel px py) : t.fb = s.fb := by
  apply Vector.ext
  intro px hpx
  apply Vector.ext
  intro py hpy
  exact h ⟨px, hpx⟩ ⟨py, hpy⟩

/-- A register file is its registers. -/
theorem v_ext (s t : State) (h : ∀ r, t.reg r = s.reg r) : t.v = s.v := by
  apply Vector.ext
  intro r hr
  exact h ⟨r, hr⟩

end Sys2Proof.Machine
end

