-- ==== Sys2Proof/Laws/Ops.lean ====
section
/-! SUPPORT. One lemma per shared operation that says everything it does: memory accesses, keys, skips, ALU writes, the loops of
the bulk instructions, the fetch and the key search. -/

namespace Sys2Proof.Machine

/-! ## Conditions of out-of-range addresses -/

@[simp] theorem outOfRange_nil : outOfRange [] = [] := rfl

theorem outOfRange_append (as bs : List Nat) : outOfRange (as ++ bs) = outOfRange as ++ outOfRange bs := by
  simp [outOfRange]

theorem outOfRange_cons_cons (a b : Nat) (as : List Nat) :
    outOfRange (a :: b :: as) = outOfRange [a] ++ outOfRange (b :: as) := outOfRange_append [a] (b :: as)

theorem outOfRange_of_lt {a : Nat} (h : a < 4096) : outOfRange [a] = [] := by
  simp [outOfRange]; omega

theorem outOfRange_of_le {a : Nat} (h : 4096 ≤ a) : outOfRange [a] = [.outOfRangeAccess (.memory a)] := by
  simp [outOfRange, h]

theorem mem_outOfRange {as : List Nat} {c : Condition} (h : c ∈ outOfRange as) :
    ∃ a, 4096 ≤ a ∧ c = .outOfRangeAccess (.memory a) := by
  simp only [outOfRange, List.mem_map, List.mem_filter, decide_eq_true_eq] at h
  obtain ⟨a, ⟨-, ha⟩, rfl⟩ := h
  exact ⟨a, ha, rfl⟩

/-! ## Memory accesses -/

theorem readByte_of_lt {a : Nat} (s : State) (h : a < 4096) : s.readByte a = s.mem.read a := if_pos h

theorem readByte_of_le {a : Nat} (s : State) (h : 4096 ≤ a) : s.readByte a = 0 := if_neg (Nat.not_lt.2 h)

/-- An address check lists the address if it is out of range, and does nothing else. -/
theorem checkAddress_eq (a : Nat) (s : State) : checkAddress a s = { s with conds := s.conds ++ outOfRange [a] } := by
  unfold checkAddress
  split
  · next h => simp [outOfRange_of_lt h]
  · next h => simp [outOfRange_of_le (Nat.le_of_not_lt h), State.signal]

/-- A write stores the byte in range, lists the address out of range, and does nothing else. -/
theorem memWrite_eq (a : Nat) (b : Byte) (s : State) :
    memWrite a b s = { s with
      mem := if a < 4096 then s.mem.write a b else s.mem
      conds := s.conds ++ outOfRange [a] } := by
  unfold memWrite
  split
  · next h => simp [outOfRange_of_lt h]
  · next h => simp [outOfRange_of_le (Nat.le_of_not_lt h), State.signal]

theorem wf_memWrite (a : Nat) (b : Byte) {s : State} (hs : s.mem.wf = true) : (memWrite a b s).mem.wf = true := by
  rw [memWrite_eq]
  dsimp only
  split
  · next h => exact wf_write b h hs
  · exact hs

/-- The byte read after a write: the written one at its address, if that is in range; every other as before. -/
theorem readByte_memWrite (a a' : Nat) (b : Byte) {s : State} (hs : s.mem.wf = true) :
    (memWrite a b s).readByte a' = if a' = a ∧ a < 4096 then b else s.readByte a' := by
  rw [memWrite_eq]
  unfold State.readByte
  by_cases h : a < 4096
  · by_cases h' : a' = a
    · subst h'; simp [h, read_write hs]
    · simp [h, h', read_write hs]
  · simp [h]

/-! ## Keys -/

/-- A key check lists the key number if there is no such key, and does nothing else. -/
theorem checkKey_eq (k : Nat) (s : State) :
    checkKey k s = { s with conds := s.conds ++ if k < 16 then [] else [.outOfRangeAccess (.key k)] } := by
  unfold checkKey
  split
  · next h => simp
  · next h => simp [State.signal]

theorem keyPressed_of_le {k : Nat} (s : State) (h : 16 ≤ k) : s.keyPressed k = false := by
  simp [State.keyPressed, h]

/-- The key search finds nothing exactly when no key is pressed. -/
theorem lowestPressed_none (s : State) : lowestPressed s = none ↔ ∀ k, s.keyPressed k = false := by
  simp only [lowestPressed, List.find?_eq_none, List.mem_range]
  constructor
  · intro h k
    by_cases hk : k < 16
    · simpa using h k hk
    · exact keyPressed_of_le s (by omega)
  · intro h k _
    simp [h k]

/-- The key search finds the least pressed key. -/
theorem lowestPressed_some (s : State) (k : Nat) :
    lowestPressed s = some k ↔ s.keyPressed k = true ∧ ∀ j, j < k → s.keyPressed j = false := by
  simp only [lowestPressed, List.find?_range_eq_some]
  constructor
  · rintro ⟨hp, -, hj⟩
    exact ⟨hp, fun j hjk => by simpa using hj j hjk⟩
  · rintro ⟨hp, hj⟩
    refine ⟨hp, ?_, fun j hjk => by simpa using hj j hjk⟩
    by_contra hk
    rw [keyPressed_of_le s (by simpa using hk)] at hp
    cases hp

/-! ## Program counter and ALU writes -/

/-- A skip moves PC by 4 or by 2 and does nothing else. -/
theorem skipIf_eq (c : Bool) (s : State) : skipIf c s = { s with pc := if c then s.pc + 4 else s.pc + 2 } := by
  cases c
  · rfl
  · simp only [skipIf, advance, if_true, BitVec.add_assoc]; rfl

theorem flagByte_toNat (b : Bool) : (flagByte b).toNat = if b then 1 else 0 := by cases b <;> rfl

/-- Flag first, then result: the result stands where VF is the destination. -/
theorem writeFlagAndResult_reg (x r : RegIx) (flag result : Byte) (s : State) :
    (writeFlagAndResult false x flag result s).reg r =
      if r = x then result else if r = vf then flag else s.reg r := by
  simp [writeFlagAndResult, setReg_reg]

/-! ## The loops of the bulk instructions -/

theorem nthReg_val {k : Nat} (h : k < 16) : (nthReg k).val = k := Nat.mod_eq_of_lt h

theorem nthReg_eq_iff {k : Nat} (h : k < 16) (r : RegIx) : nthReg k = r ↔ k = r.val := by
  rw [Fin.ext_iff, nthReg_val h]

theorem storeRegs_succ (s t : State) (n : Nat) :
    storeRegs s (List.range (n + 1)) t =
      memWrite (s.indexed n) (s.reg (nthReg n)) (storeRegs s (List.range n) t) := by
  simp [storeRegs, List.range_succ, List.foldl_append]

/-- The bulk store changes memory and lists its out-of-range addresses, ascending; nothing else. -/
theorem storeRegs_rest (s t : State) (n : Nat) :
    { storeRegs s (List.range n) t with mem := t.mem } =
      { t with conds := t.conds ++ outOfRange ((List.range n).map s.indexed) } := by
  induction n with
  | zero => simp [storeRegs]
  | succ n ih =>
    rw [storeRegs_succ, memWrite_eq, List.range_succ, List.map_append, outOfRange_append, ← List.append_assoc]
    simp only [State.mk.injEq] at ih ⊢
    simp [ih]

/-- The same, field by field. -/
theorem storeRegs_fields (s t : State) (n : Nat) :
    let u := storeRegs s (List.range n) t
    u.v = t.v ∧ u.i = t.i ∧ u.pc = t.pc ∧ u.sp = t.sp ∧ u.stk = t.stk ∧ u.fb = t.fb ∧ u.dt = t.dt ∧ u.st = t.st ∧
      u.key = t.key ∧ u.rdraw = t.rdraw ∧ u.run = t.run ∧
      u.conds = t.conds ++ outOfRange ((List.range n).map s.indexed) ∧ u.draws = t.draws := by
  have h := storeRegs_rest s t n
  simp only [State.mk.injEq] at h
  simpa using h

theorem wf_storeRegs {s t : State} (ht : t.mem.wf = true) (n : Nat) : (storeRegs s (List.range n) t).mem.wf = true := by
  induction n with
  | zero => exact ht
  | succ n ih => rw [storeRegs_succ]; exact wf_memWrite _ _ ih

/-- The byte read after the bulk store. -/
theorem storeRegs_readByte {s t : State} (ht : t.mem.wf = true) (n a : Nat) :
    (storeRegs s (List.range n) t).readByte a =
      if s.i.toNat ≤ a ∧ a < s.i.toNat + n ∧ a < 4096 then s.reg (nthReg (a - s.i.toNat)) else t.readByte a := by
  induction n with
  | zero => simp [storeRegs]; intros; omega
  | succ n ih =>
    rw [storeRegs_succ, readByte_memWrite _ _ _ (wf_storeRegs ht n), ih]
    have hi : s.indexed n = s.i.toNat + n := rfl
    rw [hi]
    by_cases h : a = s.i.toNat + n ∧ s.i.toNat + n < 4096
    · obtain ⟨rfl, h⟩ := h
      rw [if_pos ⟨rfl, h⟩, if_pos (by omega), Nat.add_sub_cancel_left]
    · rw [if_neg h]
      by_cases h' : s.i.toNat ≤ a ∧ a < s.i.toNat + n ∧ a < 4096
      · rw [if_pos h', if_pos (by omega)]
      · rw [if_neg h', if_neg (by omega)]

theorem loadRegs_succ (t : State) (n : Nat) :
    (List.range (n + 1)).foldl loadReg t = loadReg ((List.range n).foldl loadReg t) n := by
  simp [List.range_succ, List.foldl_append]

theorem loadReg_eq (t : State) (k : Nat) :
    loadReg t k = { t.setReg (nthReg k) (t.readByte (t.indexed k)) with
      conds := t.conds ++ outOfRange [t.indexed k] } := by
  simp [loadReg, memRead, checkAddress_eq, State.setReg]

/-- The bulk load changes registers and lists its out-of-range addresses, ascending; nothing else. -/
theorem loadRegs_rest (t : State) (n : Nat) :
    { (List.range n).foldl loadReg t with v := t.v } =
      { t with conds := t.conds ++ outOfRange ((List.range n).map t.indexed) } := by
  induction n with
  | zero => simp
  | succ n ih =>
    rw [loadRegs_succ, loadReg_eq, List.range_succ, List.map_append, outOfRange_append, ← List.append_assoc]
    simp only [State.mk.injEq, State.setReg] at ih ⊢
    simp [ih, State.indexed]

/-- The same, field by field. -/
theorem loadRegs_fields (t : State) (n : Nat) :
    let u := (List.range n).foldl loadReg t
    u.mem = t.mem ∧ u.i = t.i ∧ u.pc = t.pc ∧ u.sp = t.sp ∧ u.stk = t.stk ∧ u.fb = t.fb ∧ u.dt = t.dt ∧ u.st = t.st ∧
      u.key = t.key ∧ u.rdraw = t.rdraw ∧ u.run = t.run ∧
      u.conds = t.conds ++ outOfRange ((List.range n).map t.indexed) ∧ u.draws = t.draws := by
  have h := loadRegs_rest t n
  simp only [State.mk.injEq] at h
  simpa using h

/-- The registers after the bulk load. -/
theorem loadRegs_reg (t : State) {n : Nat} (hn : n ≤ 16) (r : RegIx) :
    ((List.range n).foldl loadReg t).reg r =
      if r.val < n then t.readByte (t.i.toNat + r.val) else t.reg r := by
  induction n with
  | zero => simp
  | succ n ih =>
    have hr := loadRegs_rest t n
    simp only [State.mk.injEq] at hr
    have hm : ((List.range n).foldl loadReg t).readByte = t.readByte := by
      funext a; simp [State.readByte, hr]
    have hx : ((List.range n).foldl loadReg t).indexed n = t.i.toNat + n := by
      simp [State.indexed, effectiveAddress, hr]
    rw [loadRegs_succ, loadReg_eq, hm, hx]
    show ((List.foldl loadReg t (List.range n)).setReg _ _).reg r = _
    rw [setReg_reg, ih (by omega)]
    simp only [eq_comm (a := r), nthReg_eq_iff (show n < 16 by omega)]
    by_cases h : n = r.val
    · subst h; simp
    · by_cases h' : r.val < n
      · simp [h, h', show r.val < n + 1 by omega]
      · simp [h, h', show ¬ r.val < n + 1 by omega]

/-! ## The random input -/

/-- A draw gives the next free byte and counts it; nothing else changes. -/
theorem drawRandom_eq (s : State) : drawRandom s = (Config.rand s.draws, { s with draws := s.draws + 1 }) := rfl

@[simp] theorem drawRandom_reg (s : State) (r : RegIx) : (drawRandom s).2.reg r = s.reg r := rfl

@[simp] theorem drawRandom_pixel (s : State) (px : Fin 64) (py : Fin 32) : (drawRandom s).2.pixel px py = s.pixel px py := rfl

@[simp] theorem drawRandom_readByte (s : State) (a : Nat) : (drawRandom s).2.readByte a = s.readByte a := rfl

@[simp] theorem drawRandom_keyPressed (s : State) (k : Nat) : (drawRandom s).2.keyPressed k = s.keyPressed k := rfl

/-! ## The fetch -/

/-- The fetch reads two bytes and lists the addresses out of range; nothing else. -/
theorem fetch_eq (s : State) :
    fetch s = (wordOfBytes (s.readByte s.pc.toNat) (s.readByte (s.pc.toNat + 1)),
      { s with conds := s.conds ++ outOfRange [s.pc.toNat, s.pc.toNat + 1] }) := by
  rw [outOfRange_cons_cons]
  simp [fetch, memRead, checkAddress_eq, State.readByte]

theorem wordOfBytes_toNat (hi lo : Byte) : (wordOfBytes hi lo).toNat = hi.toNat * 256 + lo.toNat := by
  simp only [wordOfBytes, BitVec.toNat_append]
  rw [← Nat.shiftLeft_add_eq_or_of_lt lo.isLt, Nat.shiftLeft_eq]

/-- The word the fetch at PC reads. -/
theorem fetch_word (s : State) : (fetch s).1 = wordOfBytes (s.readByte s.pc.toNat) (s.readByte (s.pc.toNat + 1)) := by
  rw [fetch_eq]

theorem wordOfBytes_bytes (w : Word) : wordOfBytes (highByte w) (lowByte w) = w := by
  apply BitVec.eq_of_toNat_eq
  rw [wordOfBytes_toNat]
  simp [highByte, lowByte, BitVec.extractLsb'_toNat, Nat.shiftRight_eq_div_pow]
  omega

end Sys2Proof.Machine
end

