-- ==== Sys2Proof/Laws/Display.lean ====
section
/-! SUPPORT. What a draw does, said once: it flips a set of pixels and reports whether one of them was set. -/

namespace Sys2Proof.Machine

/-- From `s` to `t` exactly the pixels in `P` are flipped; VF becomes 1 if one of them was set and is kept otherwise; nothing
else but the condition list may differ. -/
structure Flips (P : Fin 64 → Fin 32 → Prop) (s t : State) : Prop where
  pixel : ∀ px py, t.pixel px py = true ↔ (s.pixel px py = true ∧ ¬ P px py) ∨ (s.pixel px py = false ∧ P px py)
  collide : (∃ px py, s.pixel px py = true ∧ P px py) → t.reg vf = 1
  clean : (∀ px py, P px py → s.pixel px py = false) → t.reg vf = s.reg vf
  regs : ∀ r, r ≠ vf → t.reg r = s.reg r
  mem : t.mem = s.mem
  i : t.i = s.i
  pc : t.pc = s.pc
  sp : t.sp = s.sp
  stk : t.stk = s.stk
  dt : t.dt = s.dt
  st : t.st = s.st
  key : t.key = s.key
  rdraw : t.rdraw = s.rdraw
  run : t.run = s.run
  draws : t.draws = s.draws

/-- A pixel outside `P` is as before. -/
theorem Flips.outside {P} {s t : State} (h : Flips P s t) {px py} (hp : ¬ P px py) : t.pixel px py = s.pixel px py := by
  have := h.pixel px py
  cases hs : s.pixel px py <;> cases ht : t.pixel px py <;> simp_all

/-- A pixel in `P` is flipped. -/
theorem Flips.inside {P} {s t : State} (h : Flips P s t) {px py} (hp : P px py) : t.pixel px py = !s.pixel px py := by
  have := h.pixel px py
  cases hs : s.pixel px py <;> cases ht : t.pixel px py <;> simp_all

theorem Flips.refl (s : State) : Flips (fun _ _ => False) s s := by
  constructor <;> simp

/-- Only the set of pixels matters. -/
theorem Flips.congr {P Q} {s t : State} (h : Flips P s t) (hPQ : ∀ px py, P px py ↔ Q px py) : Flips Q s t := by
  obtain rfl : P = Q := by funext px py; exact propext (hPQ px py)
  exact h

/-- The condition list before a draw does not matter. -/
theorem Flips.of_conds {P} {s t : State} (c : List Condition) (h : Flips P { s with conds := c } t) : Flips P s t :=
  ⟨h.pixel, h.collide, h.clean, h.regs, h.mem, h.i, h.pc, h.sp, h.stk, h.dt, h.st, h.key, h.rdraw, h.run, h.draws⟩

/-- Two draws that share no pixel are one draw of both. -/
theorem Flips.trans {P Q} {s t u : State} (h₁ : Flips P s t) (h₂ : Flips Q t u)
    (hd : ∀ px py, P px py → ¬ Q px py) : Flips (fun px py => P px py ∨ Q px py) s u where
  pixel px py := by
    have h1 := h₁.pixel px py
    have h2 := h₂.pixel px py
    have h3 := hd px py
    cases hs : s.pixel px py <;> cases ht : t.pixel px py <;> cases hu : u.pixel px py <;>
      simp only [hs, ht, hu] at h1 h2 ⊢ <;> tauto
  collide := by
    rintro ⟨px, py, hs, hP | hQ⟩
    · have ht := h₁.collide ⟨px, py, hs, hP⟩
      by_cases hc : ∃ qx qy, t.pixel qx qy = true ∧ Q qx qy
      · exact h₂.collide hc
      · rw [h₂.clean fun qx qy hq => by simpa using fun hp => hc ⟨qx, qy, hp, hq⟩, ht]
    · exact h₂.collide ⟨px, py, by rw [h₁.outside fun hp => hd px py hp hQ, hs], hQ⟩
  clean h := by
    rw [h₂.clean, h₁.clean fun px py hp => h px py (.inl hp)]
    intro px py hq
    rw [h₁.outside fun hp => hd px py hp hq]
    exact h px py (.inr hq)
  regs r hr := by rw [h₂.regs r hr, h₁.regs r hr]
  mem := by rw [h₂.mem, h₁.mem]
  i := by rw [h₂.i, h₁.i]
  pc := by rw [h₂.pc, h₁.pc]
  sp := by rw [h₂.sp, h₁.sp]
  stk := by rw [h₂.stk, h₁.stk]
  dt := by rw [h₂.dt, h₁.dt]
  st := by rw [h₂.st, h₁.st]
  key := by rw [h₂.key, h₁.key]
  rdraw := by rw [h₂.rdraw, h₁.rdraw]
  run := by rw [h₂.run, h₁.run]
  draws := by rw [h₂.draws, h₁.draws]

theorem togglePixel_flips (qx : Fin 64) (qy : Fin 32) (s : State) :
    Flips (fun px py => px = qx ∧ py = qy) s (togglePixel qx qy s) where
  pixel px py := by
    unfold togglePixel
    by_cases h : px = qx ∧ py = qy
    · obtain ⟨rfl, rfl⟩ := h
      split
      · next hs => simp [setPixel_pixel, hs]
      · next hs => simp [setPixel_pixel, hs]
    · split <;> simp [setPixel_pixel, h]
  collide := by
    rintro ⟨px, py, hs, rfl, rfl⟩
    simp [togglePixel, hs]
  clean h := by
    simp [togglePixel, h qx qy ⟨rfl, rfl⟩]
  regs r hr := by
    unfold togglePixel
    split <;> simp [setReg_reg, hr]
  mem := by unfold togglePixel; split <;> rfl
  i := by unfold togglePixel; split <;> rfl
  pc := by unfold togglePixel; split <;> rfl
  sp := by unfold togglePixel; split <;> rfl
  stk := by unfold togglePixel; split <;> rfl
  dt := by unfold togglePixel; split <;> rfl
  st := by unfold togglePixel; split <;> rfl
  key := by unfold togglePixel; split <;> rfl
  rdraw := by unfold togglePixel; split <;> rfl
  run := by unfold togglePixel; split <;> rfl
  draws := by unfold togglePixel; split <;> rfl

/-- Columns are told apart within a sprite row. -/
theorem wrapX_inj {xs c d : Nat} (hc : c < 8) (hd : d < 8) (h : wrapX (xs + c) = wrapX (xs + d)) : c = d := by
  have := congrArg Fin.val h
  simp only [wrapX, Fin.ofNat] at this
  omega

/-- Rows are told apart within a sprite. -/
theorem wrapY_inj {ys r q : Nat} (hr : r < 16) (hq : q < 16) (h : wrapY (ys + r) = wrapY (ys + q)) : r = q := by
  have := congrArg Fin.val h
  simp only [wrapY, Fin.ofNat] at this
  omega

/-- The first `k` columns of a sprite row. -/
theorem drawBits_flip (xs ys r : Nat) (row : Byte) (s : State) {k : Nat} (hk : k ≤ 8) :
    Flips (fun px py => ∃ c, c < k ∧ row.getLsbD (7 - c) = true ∧ px = wrapX (xs + c) ∧ py = wrapY (ys + r)) s
      ((List.range k).foldl (drawBit xs ys r row) s) := by
  induction k with
  | zero => exact (Flips.refl s).congr (by simp)
  | succ k ih =>
    rw [List.range_succ, List.foldl_append]
    have h₁ := ih (by omega)
    generalize (List.range k).foldl (drawBit xs ys r row) s = t at h₁ ⊢
    simp only [List.foldl_cons, List.foldl_nil, drawBit]
    split
    · next hb =>
      refine (h₁.trans (togglePixel_flips _ _ t) ?_).congr (fun px py => ?_)
      · rintro px py ⟨c, hc, -, hx, -⟩ ⟨hx', -⟩
        exact absurd (wrapX_inj (by omega) (by omega) (hx.symm.trans hx')) (by omega)
      · constructor
        · rintro (⟨c, hc, h⟩ | ⟨hx, hy⟩)
          · exact ⟨c, by omega, h⟩
          · exact ⟨k, by omega, hb, hx, hy⟩
        · rintro ⟨c, hc, hbit, hx, hy⟩
          by_cases hck : c = k
          · subst hck; exact .inr ⟨hx, hy⟩
          · exact .inl ⟨c, by omega, hbit, hx, hy⟩
    · next hb =>
      refine h₁.congr (fun px py => ?_)
      constructor
      · rintro ⟨c, hc, h⟩
        exact ⟨c, by omega, h⟩
      · rintro ⟨c, hc, hbit, h⟩
        refine ⟨c, ?_, hbit, h⟩
        by_contra hck
        obtain rfl : c = k := by omega
        exact hb hbit

theorem drawRow_eq (xs ys r : Nat) (s : State) :
    drawRow xs ys s r = (List.range 8).foldl (drawBit xs ys r (s.readByte (s.i.toNat + r)))
      { s with conds := s.conds ++ outOfRange [s.i.toNat + r] } := by
  simp [drawRow, memRead, checkAddress_eq, State.indexed, effectiveAddress]

/-- The conditions of a draw's bits: none. -/
theorem drawBits_conds (xs ys r : Nat) (row : Byte) (cs : List Nat) (s : State) :
    (cs.foldl (drawBit xs ys r row) s).conds = s.conds := by
  induction cs generalizing s with
  | nil => rfl
  | cons c cs ih =>
    rw [List.foldl_cons, ih]
    unfold drawBit togglePixel
    split <;> [split; skip] <;> rfl

/-- The first `m` rows of a sprite: the pixels they flip and the addresses they list. -/
theorem drawRows_flip (xs ys : Nat) (s : State) {m : Nat} (hm : m ≤ 16) :
    Flips (fun px py => ∃ r c, r < m ∧ c < 8 ∧ (s.readByte (s.i.toNat + r)).getLsbD (7 - c) = true ∧
      px = wrapX (xs + c) ∧ py = wrapY (ys + r)) s ((List.range m).foldl (drawRow xs ys) s) ∧
    ((List.range m).foldl (drawRow xs ys) s).conds = s.conds ++ outOfRange ((List.range m).map (s.i.toNat + ·)) := by
  induction m with
  | zero => exact ⟨(Flips.refl s).congr (by simp), by simp⟩
  | succ m ih =>
    obtain ⟨h₁, hc⟩ := ih (by omega)
    rw [List.range_succ, List.foldl_append, List.map_append, outOfRange_append]
    generalize (List.range m).foldl (drawRow xs ys) s = t at h₁ hc ⊢
    have hi : t.i = s.i := h₁.i
    have hread : t.readByte (t.i.toNat + m) = s.readByte (s.i.toNat + m) := by simp [State.readByte, hi, h₁.mem]
    simp only [List.foldl_cons, List.foldl_nil, drawRow_eq, hread]
    constructor
    · have h₂ := drawBits_flip xs ys m (s.readByte (s.i.toNat + m))
        { t with conds := t.conds ++ outOfRange [t.i.toNat + m] } (Nat.le_refl 8)
      refine (h₁.trans (Flips.of_conds _ h₂) ?_).congr (fun px py => ?_)
      · rintro px py ⟨r, c, hr, -, -, -, hy⟩ ⟨d, -, -, -, hy'⟩
        exact absurd (wrapY_inj (by omega) (by omega) (hy.symm.trans hy')) (by omega)
      · constructor
        · rintro (⟨r, c, hr, h⟩ | ⟨c, hc8, h⟩)
          · exact ⟨r, c, by omega, h⟩
          · exact ⟨m, c, by omega, hc8, h⟩
        · rintro ⟨r, c, hr, h⟩
          by_cases hrm : r = m
          · subst hrm; exact .inr ⟨c, h⟩
          · exact .inl ⟨r, c, by omega, h⟩
    · rw [drawBits_conds]
      simp [hc, hi]

/-- What DRW does: from the state with VF cleared, exactly the sprite's pixels are flipped. -/
theorem execDrw_flips (x y : RegIx) (n : Rows) (s : State) :
    ∃ t, execDrw x y n s = .next (advance (raiseRedraw t)) ∧ Flips (SpriteBit s x y n) (s.setReg vf 0) t ∧
      t.conds = s.conds ++ outOfRange ((List.range n.val).map (s.i.toNat + ·)) := by
  obtain ⟨h, hc⟩ := drawRows_flip (s.reg x).toNat (s.reg y).toNat (s.setReg vf 0) (m := n.val) (by omega)
  refine ⟨_, rfl, h.congr (fun px py => ?_), by simpa using hc⟩
  simp [SpriteBit, wrapX, wrapY, Fin.ext_iff, Fin.ofNat]

end Sys2Proof.Machine
end

