-- ==== Sys2Proof/Laws/PerInstr.lean ====
section
/-! SUPPORT. The family RowBits: every instruction's word matches its row of the opcode map (30_encoding.md R53), the rows
written out here from its mask and match columns. -/

namespace Sys2Proof.Laws.RowBits

/-- The mask column of the instruction's row (R53). -/
def rowMask : Instr → Word
  | .sys _ | .jp _ | .call _ | .seImm _ _ | .sneImm _ _ | .ldImm _ _ | .addImm _ _ | .ldI _ | .jpV0 _ |
    .rnd _ _ | .drw _ _ _ => 0xF000#16
  | .cls | .ret => 0xFFFF#16
  | .seReg _ _ | .ldReg _ _ | .orReg _ _ | .andReg _ _ | .xorReg _ _ | .addReg _ _ | .subReg _ _ | .shrReg _ _ |
    .subnReg _ _ | .shlReg _ _ | .sneReg _ _ => 0xF00F#16
  | .skp _ | .sknp _ | .ldVxDt _ | .ldVxK _ | .ldDtVx _ | .ldStVx _ | .addI _ | .ldF _ | .ldB _ | .ldMemVx _ |
    .ldVxMem _ => 0xF0FF#16

/-- The match column of the instruction's row (R53). -/
def rowMatch : Instr → Word
  | .sys _ => 0x0000#16
  | .cls => 0x00E0#16
  | .ret => 0x00EE#16
  | .jp _ => 0x1000#16
  | .call _ => 0x2000#16
  | .seImm _ _ => 0x3000#16
  | .sneImm _ _ => 0x4000#16
  | .seReg _ _ => 0x5000#16
  | .ldImm _ _ => 0x6000#16
  | .addImm _ _ => 0x7000#16
  | .ldReg _ _ => 0x8000#16
  | .orReg _ _ => 0x8001#16
  | .andReg _ _ => 0x8002#16
  | .xorReg _ _ => 0x8003#16
  | .addReg _ _ => 0x8004#16
  | .subReg _ _ => 0x8005#16
  | .shrReg _ _ => 0x8006#16
  | .subnReg _ _ => 0x8007#16
  | .shlReg _ _ => 0x800E#16
  | .sneReg _ _ => 0x9000#16
  | .ldI _ => 0xA000#16
  | .jpV0 _ => 0xB000#16
  | .rnd _ _ => 0xC000#16
  | .drw _ _ _ => 0xD000#16
  | .skp _ => 0xE09E#16
  | .sknp _ => 0xE0A1#16
  | .ldVxDt _ => 0xF007#16
  | .ldVxK _ => 0xF00A#16
  | .ldDtVx _ => 0xF015#16
  | .ldStVx _ => 0xF018#16
  | .addI _ => 0xF01E#16
  | .ldF _ => 0xF029#16
  | .ldB _ => 0xF033#16
  | .ldMemVx _ => 0xF055#16
  | .ldVxMem _ => 0xF065#16

/-- `op & mask = match` for the word the encoder gives (R52). -/
def Statement (i : Instr) : Prop := encode i &&& rowMask i = rowMatch i

theorem formatA_and (a : Fin 16) (nnn : Addr) : formatA a nnn &&& 0xF000#16 = formatA a 0 := by
  show (nibble a ++ nnn) &&& (0xF#4 ++ 0#12) = nibble a ++ 0#12
  rw [BitVec.and_append, BitVec.and_zero, show nibble a &&& 0xF#4 = nibble a from BitVec.and_allOnes]

theorem formatXNN_and_major (a : Fin 16) (x : RegIx) (nn : Byte) : formatXNN a x nn &&& 0xF000#16 = formatXNN a 0 0 := by
  show (nibble a ++ nibble x ++ nn) &&& (0xF#4 ++ 0#4 ++ 0#8) = nibble a ++ 0#4 ++ 0#8
  rw [BitVec.and_append, BitVec.and_append, BitVec.and_zero, BitVec.and_zero,
    show nibble a &&& 0xF#4 = nibble a from BitVec.and_allOnes]

theorem formatXNN_and (a : Fin 16) (x : RegIx) (nn : Byte) : formatXNN a x nn &&& 0xF0FF#16 = formatXNN a 0 nn := by
  show (nibble a ++ nibble x ++ nn) &&& (0xF#4 ++ 0#4 ++ 0xFF#8) = nibble a ++ 0#4 ++ nn
  rw [BitVec.and_append, BitVec.and_append, BitVec.and_zero, show nn &&& 0xFF#8 = nn from BitVec.and_allOnes,
    show nibble a &&& 0xF#4 = nibble a from BitVec.and_allOnes]

theorem formatXYN_and (a : Fin 16) (x y : RegIx) (n : Fin 16) :
    formatXYN a x y n &&& 0xF00F#16 = formatXYN a 0 0 n := by
  show (nibble a ++ nibble x ++ nibble y ++ nibble n) &&& (0xF#4 ++ 0#4 ++ 0#4 ++ 0xF#4) = nibble a ++ 0#4 ++ 0#4 ++ nibble n
  rw [BitVec.and_append, BitVec.and_append, BitVec.and_append, BitVec.and_zero, BitVec.and_zero,
    show nibble n &&& 0xF#4 = nibble n from BitVec.and_allOnes, show nibble a &&& 0xF#4 = nibble a from BitVec.and_allOnes]

theorem formatXYN_and_major (a : Fin 16) (x y : RegIx) (n : Fin 16) :
    formatXYN a x y n &&& 0xF000#16 = formatXYN a 0 0 0 := by
  show (nibble a ++ nibble x ++ nibble y ++ nibble n) &&& (0xF#4 ++ 0#4 ++ 0#4 ++ 0#4) = nibble a ++ 0#4 ++ 0#4 ++ 0#4
  rw [BitVec.and_append, BitVec.and_append, BitVec.and_append, BitVec.and_zero, BitVec.and_zero, BitVec.and_zero,
    show nibble a &&& 0xF#4 = nibble a from BitVec.and_allOnes]

theorem sys (nnn : Addr) : Statement (.sys nnn) := formatA_and 0x0 nnn
theorem cls : Statement .cls := rfl
theorem ret : Statement .ret := rfl
theorem jp (nnn : Addr) : Statement (.jp nnn) := formatA_and 0x1 nnn
theorem call (nnn : Addr) : Statement (.call nnn) := formatA_and 0x2 nnn
theorem seImm (x : RegIx) (nn : Byte) : Statement (.seImm x nn) := formatXNN_and_major 0x3 x nn
theorem sneImm (x : RegIx) (nn : Byte) : Statement (.sneImm x nn) := formatXNN_and_major 0x4 x nn
theorem seReg (x y : RegIx) : Statement (.seReg x y) := formatXYN_and 0x5 x y 0x0
theorem ldImm (x : RegIx) (nn : Byte) : Statement (.ldImm x nn) := formatXNN_and_major 0x6 x nn
theorem addImm (x : RegIx) (nn : Byte) : Statement (.addImm x nn) := formatXNN_and_major 0x7 x nn
theorem ldReg (x y : RegIx) : Statement (.ldReg x y) := formatXYN_and 0x8 x y 0x0
theorem orReg (x y : RegIx) : Statement (.orReg x y) := formatXYN_and 0x8 x y 0x1
theorem andReg (x y : RegIx) : Statement (.andReg x y) := formatXYN_and 0x8 x y 0x2
theorem xorReg (x y : RegIx) : Statement (.xorReg x y) := formatXYN_and 0x8 x y 0x3
theorem addReg (x y : RegIx) : Statement (.addReg x y) := formatXYN_and 0x8 x y 0x4
theorem subReg (x y : RegIx) : Statement (.subReg x y) := formatXYN_and 0x8 x y 0x5
theorem shrReg (x y : RegIx) : Statement (.shrReg x y) := formatXYN_and 0x8 x y 0x6
theorem subnReg (x y : RegIx) : Statement (.subnReg x y) := formatXYN_and 0x8 x y 0x7
theorem shlReg (x y : RegIx) : Statement (.shlReg x y) := formatXYN_and 0x8 x y 0xE
theorem sneReg (x y : RegIx) : Statement (.sneReg x y) := formatXYN_and 0x9 x y 0x0
theorem ldI (nnn : Addr) : Statement (.ldI nnn) := formatA_and 0xA nnn
theorem jpV0 (nnn : Addr) : Statement (.jpV0 nnn) := formatA_and 0xB nnn
theorem rnd (x : RegIx) (nn : Byte) : Statement (.rnd x nn) := formatXNN_and_major 0xC x nn
theorem drw (x y : RegIx) (n : Rows) : Statement (.drw x y n) := formatXYN_and_major 0xD x y n
theorem skp (x : RegIx) : Statement (.skp x) := formatXNN_and 0xE x 0x9E#8
theorem sknp (x : RegIx) : Statement (.sknp x) := formatXNN_and 0xE x 0xA1#8
theorem ldVxDt (x : RegIx) : Statement (.ldVxDt x) := formatXNN_and 0xF x 0x07#8
theorem ldVxK (x : RegIx) : Statement (.ldVxK x) := formatXNN_and 0xF x 0x0A#8
theorem ldDtVx (x : RegIx) : Statement (.ldDtVx x) := formatXNN_and 0xF x 0x15#8
theorem ldStVx (x : RegIx) : Statement (.ldStVx x) := formatXNN_and 0xF x 0x18#8
theorem addI (x : RegIx) : Statement (.addI x) := formatXNN_and 0xF x 0x1E#8
theorem ldF (x : RegIx) : Statement (.ldF x) := formatXNN_and 0xF x 0x29#8
theorem ldB (x : RegIx) : Statement (.ldB x) := formatXNN_and 0xF x 0x33#8
theorem ldMemVx (x : RegIx) : Statement (.ldMemVx x) := formatXNN_and 0xF x 0x55#8
theorem ldVxMem (x : RegIx) : Statement (.ldVxMem x) := formatXNN_and 0xF x 0x65#8

end Sys2Proof.Laws.RowBits
end

