-- ==== Sys2Proof/Tests/Slice0.lean ====
section
/-! SUPPORT. Tests, and one witness per statement with hypotheses. Expected results are the spec's: the ids L1-n and V-xn are
those of spec/95_test_vectors.md, the words those of 30_encoding.md R53. A witness gives inputs that meet every hypothesis of
its statement. -/

namespace Sys2Proof.Tests

open Sys2Proof Sys2Proof.Machine

/-! ## Helpers -/

/-- The reset state with some registers set. -/
def regs (rs : List (RegIx × Byte)) : State := rs.foldl (fun s p => s.setReg p.1 p.2) State.reset

/-- `s` with bytes put into memory. -/
def poke (a : Nat) (bytes : List Byte) (s : State) : State := { s with mem := s.mem.writeBytes a bytes }

/-- The state an outcome answers; the reset state where it answers none. -/
def nextOf : Host.Outcome State Fault Refusal → State
  | .next t => t
  | .fault _ | .refused _ => State.reset

/-- One step of the word `w` placed at PC answers a next state that `p` accepts. -/
def after (w : Nat) (s : State) (p : State → Bool) : Bool :=
  match step (s.withFetchWord 16 w) with
  | .next t => p t
  | .fault _ | .refused _ => false

/-- Ok, no redraw, no condition, and PC moved to `pc`. -/
def okAt (pc : Word) (t : State) : Bool := t.stepResult == ⟨none, false, []⟩ && t.pc == pc

/-- How many pixels are set. -/
def litPixels (s : State) : Nat := (s.fb.toList.map fun col => col.toList.count true).sum

/-! ## Ill-formed terms -/

theorem test_sys_with_the_word_of_cls_is_ill_formed : ¬ WellFormed (.sys 0x0E0) := by decide
theorem test_sys_with_the_word_of_ret_is_ill_formed : ¬ WellFormed (.sys 0x0EE) := by decide
theorem test_sys_beside_them_is_well_formed : WellFormed (.sys 0x0E1) ∧ WellFormed (.sys 0x000) ∧ WellFormed (.sys 0xFFF) := by
  decide

/-! ## Decoding, one word written out per row of R53 -/

theorem test_decode_group0 :
    decode 0b0000000100100011 = .instruction (.sys 0x123) ∧ decode 0b0000000011100000 = .instruction .cls ∧
    decode 0b0000000011101110 = .instruction .ret := by decide
theorem test_decode_format_a :
    decode 0b0001001000110100 = .instruction (.jp 0x234) ∧ decode 0b0010001100000000 = .instruction (.call 0x300) ∧
    decode 0b1010000100100011 = .instruction (.ldI 0x123) ∧ decode 0b1011001100000001 = .instruction (.jpV0 0x301) := by decide
theorem test_decode_format_xnn :
    decode 0b0011001101000010 = .instruction (.seImm 3 0x42) ∧ decode 0b0100001101000010 = .instruction (.sneImm 3 0x42) ∧
    decode 0b0110000000000101 = .instruction (.ldImm 0 0x05) ∧ decode 0b0111101000000010 = .instruction (.addImm 0xA 0x02) ∧
    decode 0b1100101000001111 = .instruction (.rnd 0xA 0x0F) := by decide
theorem test_decode_format_xy :
    decode 0b0101001101000000 = .instruction (.seReg 3 4) ∧ decode 0b1001001101000000 = .instruction (.sneReg 3 4) ∧
    decode 0b1000101010110000 = .instruction (.ldReg 0xA 0xB) := by decide
theorem test_decode_group8_logic :
    decode 0b1000101010110001 = .instruction (.orReg 0xA 0xB) ∧ decode 0b1000101010110010 = .instruction (.andReg 0xA 0xB) ∧
    decode 0b1000101010110011 = .instruction (.xorReg 0xA 0xB) := by decide
theorem test_decode_group8_arithmetic :
    decode 0b1000101010110100 = .instruction (.addReg 0xA 0xB) ∧ decode 0b1000101010110101 = .instruction (.subReg 0xA 0xB) ∧
    decode 0b1000101010110110 = .instruction (.shrReg 0xA 0xB) ∧ decode 0b1000101010110111 = .instruction (.subnReg 0xA 0xB) ∧
    decode 0b1000101010111110 = .instruction (.shlReg 0xA 0xB) := by decide
theorem test_decode_drw : decode 0b1101000100100101 = .instruction (.drw 1 2 5) := by decide
theorem test_decode_group_e :
    decode 0b1110001010011110 = .instruction (.skp 2) ∧ decode 0b1110001010100001 = .instruction (.sknp 2) := by decide
theorem test_decode_group_f_timers_and_key :
    decode 0b1111010100000111 = .instruction (.ldVxDt 5) ∧ decode 0b1111001100001010 = .instruction (.ldVxK 3) ∧
    decode 0b1111010100010101 = .instruction (.ldDtVx 5) ∧ decode 0b1111011000011000 = .instruction (.ldStVx 6) := by decide
theorem test_decode_group_f_index :
    decode 0b1111001100011110 = .instruction (.addI 3) ∧ decode 0b1111001100101001 = .instruction (.ldF 3) ∧
    decode 0b1111001100110011 = .instruction (.ldB 3) ∧ decode 0b1111001001010101 = .instruction (.ldMemVx 2) ∧
    decode 0b1111001001100101 = .instruction (.ldVxMem 2) := by decide
/-- V-F8 and the first and last words of R54's spaces. -/
theorem test_decode_unknown :
    [0xE000, 0xF000, 0xF001, 0x9341, 0xE39F, 0x5001, 0x5FFF, 0x8008, 0x8FFF, 0x9001, 0x9FFF, 0xEFFF, 0xFFFF].all
      (fun w => decode (BitVec.ofNat 16 w) == .unknown (BitVec.ofNat 16 w)) = true := by decide
theorem test_decode_table_word :
    decodeTableWord 16 0x00EE = some .ret ∧ decodeTableWord 16 0x6A7F = some (.ldImm 0xA 0x7F) ∧
    decodeTableWord 16 0x5121 = none := by decide
theorem test_encode : encode (.drw 0 1 5) = 0xD015#16 ∧ encode (.ldStVx 5) = 0xF518#16 ∧ encode (.call 0x300) = 0x2300#16 := by
  decide

/-! ## STEP -/

/-- V-F2: the second byte lies past memory. -/
theorem test_fetch_past_the_end :
    let t := nextOf (step (poke 0xFFF [0x60] { State.reset with pc := 0xFFF }))
    t.stepResult = ⟨none, false, [.outOfRangeAccess (.memory 4096)]⟩ ∧ t.pc = 0x1001 ∧ t.reg 0 = 0 := by decide
/-- V-F4: PC wraps at 16 bits. -/
theorem test_pc_wraps :
    let t := nextOf (step { State.reset with pc := 0xFFFE })
    t.stepResult = ⟨none, false, [.outOfRangeAccess (.memory 65534), .outOfRangeAccess (.memory 65535)]⟩ ∧ t.pc = 0 := by decide
/-- L1-9, step 1. -/
theorem test_unknown_word :
    after 0x8128 State.reset (fun t => t.stepResult == ⟨none, false, [.unknownOpcode 0x200 0x8128]⟩ && t.pc == 0x202) = true := by
  decide
/-- V-H8. -/
theorem test_step_while_faulted :
    (nextOf (step { State.reset with run := .faulted .stackOverflow })).stepResult = ⟨some .stackOverflow, false, []⟩ := by decide
/-- Log entry 15: a PC with no two bytes of memory moves to the program base. -/
theorem test_placing_moves_a_pc_past_memory :
    (State.withFetchWord { State.reset with pc := 0xFFF } 16 0x6005).pc = 0x200 ∧
    (State.withFetchWord { State.reset with pc := 0xFFE } 16 0x6005).pc = 0xFFE := by decide

/-! ## Control flow -/

/-- V-C18. -/
theorem test_sys : after 0x0123 State.reset (okAt 0x202) = true := by decide
/-- V-C1. -/
theorem test_jp : after 0x1ABC State.reset (okAt 0xABC) = true := by decide
/-- V-C3. -/
theorem test_call_fills_the_stack :
    after 0x2400 { State.reset with sp := 15 } (fun t => okAt 0x400 t && t.sp == 16 && t.stk[15] == 0x200) = true := by decide
/-- V-C4. -/
theorem test_call_overflow :
    after 0x2400 { State.reset with sp := 16 } (fun t => t.stepResult == ⟨some .stackOverflow, false, []⟩ && t.pc == 0x200 &&
      t.sp == 16 && t.stk == State.reset.stk) = true := by decide
/-- V-C5. -/
theorem test_ret :
    after 0x00EE { State.reset with sp := 2, stk := State.reset.stk.set 1 0x456 }
      (fun t => okAt 0x458 t && t.sp == 1 && t.stk[1] == 0x456) = true := by decide
/-- L1-7. -/
theorem test_ret_underflow :
    after 0x00EE State.reset (fun t => t.stepResult == ⟨some .stackUnderflow, false, []⟩ && t.pc == 0x200 && t.sp == 0) = true := by
  decide
/-- V-C8, V-C9. -/
theorem test_se_imm :
    (after 0x3342 (regs [(3, 0x42)]) (okAt 0x204) && after 0x3342 (regs [(3, 0x41)]) (okAt 0x202)) = true := by decide
/-- V-C10, V-C11. -/
theorem test_sne_imm :
    (after 0x4342 (regs [(3, 0x41)]) (okAt 0x204) && after 0x4342 (regs [(3, 0x42)]) (okAt 0x202)) = true := by decide
/-- V-C12. -/
theorem test_se_reg :
    (after 0x5340 (regs [(3, 7), (4, 7)]) (okAt 0x204) && after 0x5340 (regs [(3, 7), (4, 8)]) (okAt 0x202)) = true := by decide
/-- V-C13, V-C14. -/
theorem test_sne_reg :
    (after 0x9340 (regs [(3, 7), (4, 7)]) (okAt 0x202) && after 0x9340 (regs [(3, 7), (4, 8)]) (okAt 0x204)) = true := by decide
/-- V-C17. -/
theorem test_jp_v0_is_not_masked : after 0xBFFF (regs [(0, 0xFF)]) (okAt 0x10FE) = true := by decide

/-! ## Register and ALU -/

/-- L1-2. -/
theorem test_ld_imm : after 0x6005 State.reset (fun t => okAt 0x202 t && t.reg 0 == 5) = true := by decide
/-- V-A2. -/
theorem test_add_imm_has_no_flag :
    after 0x7A02 (regs [(0xA, 0xFF), (0xF, 5)]) (fun t => okAt 0x202 t && t.reg 0xA == 1 && t.reg 0xF == 5) = true := by decide
/-- V-A3. -/
theorem test_ld_reg : after 0x8AB0 (regs [(0xB, 0x33)]) (fun t => t.reg 0xA == 0x33 && t.reg 0xB == 0x33) = true := by decide
/-- V-A4. -/
theorem test_or :
    after 0x8AB1 (regs [(0xA, 0xF0), (0xB, 0x0F), (0xF, 5)]) (fun t => t.reg 0xA == 0xFF && t.reg 0xF == 5) = true := by decide
/-- V-A5. -/
theorem test_and :
    after 0x8AB2 (regs [(0xA, 0xF0), (0xB, 0x3C), (0xF, 5)]) (fun t => t.reg 0xA == 0x30 && t.reg 0xF == 5) = true := by decide
/-- V-A6. -/
theorem test_xor :
    after 0x8AB3 (regs [(0xA, 0xF0), (0xB, 0x3C), (0xF, 5)]) (fun t => t.reg 0xA == 0xCC && t.reg 0xF == 5) = true := by decide
/-- L1-4. -/
theorem test_add_carry : after 0x8AB4 (regs [(0xA, 0xFF), (0xB, 1)]) (fun t => t.reg 0xA == 0 && t.reg 0xF == 1) = true := by decide
/-- V-A17, V-A20. -/
theorem test_add_with_vf :
    (after 0x8F14 (regs [(0xF, 1), (1, 2)]) (fun t => t.reg 0xF == 3) &&
      after 0x80F4 (regs [(0, 5), (0xF, 9)]) (fun t => t.reg 0 == 0x0E && t.reg 0xF == 0)) = true := by decide
/-- V-A9, V-A10. -/
theorem test_sub :
    (after 0x8AB5 (regs [(0xA, 3), (0xB, 5)]) (fun t => t.reg 0xA == 0xFE && t.reg 0xF == 0) &&
      after 0x8AB5 (regs [(0xA, 5), (0xB, 5)]) (fun t => t.reg 0xA == 0 && t.reg 0xF == 1)) = true := by decide
/-- V-A19. -/
theorem test_sub_vf_from_itself : after 0x8FF5 (regs [(0xF, 0x80)]) (fun t => t.reg 0xF == 0) = true := by decide
/-- V-A11, V-A12. -/
theorem test_subn :
    (after 0x8AB7 (regs [(0xA, 3), (0xB, 5)]) (fun t => t.reg 0xA == 2 && t.reg 0xF == 1) &&
      after 0x8AB7 (regs [(0xA, 5), (0xB, 3)]) (fun t => t.reg 0xA == 0xFE && t.reg 0xF == 0)) = true := by decide
/-- V-A13. -/
theorem test_shr_ignores_vy :
    after 0x8AB6 (regs [(0xA, 5), (0xB, 0xFF)]) (fun t => t.reg 0xA == 2 && t.reg 0xF == 1 && t.reg 0xB == 0xFF) = true := by decide
/-- V-A15, V-A18. -/
theorem test_shl :
    (after 0x8ABE (regs [(0xA, 0x81)]) (fun t => t.reg 0xA == 2 && t.reg 0xF == 1) &&
      after 0x8FFE (regs [(0xF, 0x80)]) (fun t => t.reg 0xF == 0)) = true := by decide
/-- V-A22 for whatever byte is drawn. -/
theorem test_rnd_masks_the_draw : (nextOf (exec (.rnd 0xA 0x0F) State.reset)).reg 0xA = Config.rand 0 &&& 0x0F#8 := by rfl
/-- V-A23 says 00 for every RAND; the draw is counted. -/
theorem test_rnd_counts_the_draw : (nextOf (exec (.rnd 0xA 0) State.reset)).draws = 1 := by rfl

/-! ## Memory and index -/

/-- V-M1. -/
theorem test_ld_i : after 0xA123 State.reset (fun t => okAt 0x202 t && t.i == 0x123) = true := by decide
/-- V-M2, V-M3. -/
theorem test_add_i_flag_is_past_the_address_space :
    (after 0xF31E { regs [(3, 1)] with i := 0xFFE } (fun t => t.i == 0xFFF && t.reg 0xF == 0) &&
      after 0xF31E { regs [(3, 1)] with i := 0xFFF } (fun t => t.i == 0x1000 && t.reg 0xF == 1)) = true := by decide
/-- V-M4, V-M5. -/
theorem test_add_i_wraps_and_reads_vf_first :
    (after 0xF01E { regs [(0, 1)] with i := 0xFFFF } (fun t => t.i == 0 && t.reg 0xF == 1) &&
      after 0xFF1E { regs [(0xF, 0x10)] with i := 0x100 } (fun t => t.i == 0x110 && t.reg 0xF == 0)) = true := by decide
/-- V-M6, V-M7. -/
theorem test_ld_f :
    (after 0xF329 (regs [(3, 0x0A)]) (fun t => t.i == 0x32) && after 0xF329 (regs [(3, 0x1A)]) (fun t => t.i == 0x32)) = true := by
  decide
/-- V-M10. -/
theorem test_ld_b :
    after 0xF333 { regs [(3, 255)] with i := 0x300 }
      (fun t => t.readByte 0x300 == 2 && t.readByte 0x301 == 5 && t.readByte 0x302 == 5 && t.i == 0x300) = true := by decide
/-- V-M11. -/
theorem test_ld_b_drops_the_last_digit :
    after 0xF333 { regs [(3, 123)] with i := 0xFFE } (fun t => t.readByte 0xFFE == 1 && t.readByte 0xFFF == 2 &&
      t.conds == [.outOfRangeAccess (.memory 4096)]) = true := by decide
/-- V-M12. -/
theorem test_bulk_store_stops_at_vx :
    after 0xF355 { regs [(0, 1), (1, 2), (2, 3), (3, 4), (4, 5)] with i := 0x300 } (fun t => t.readByte 0x300 == 1 &&
      t.readByte 0x303 == 4 && t.readByte 0x304 == 0 && t.i == 0x300) = true := by decide
/-- V-M14. -/
theorem test_bulk_store_past_the_end :
    after 0xF355 { regs [(0, 1), (1, 2), (2, 3), (3, 4)] with i := 0xFFE } (fun t => t.readByte 0xFFE == 1 &&
      t.readByte 0xFFF == 2 && t.conds == [.outOfRangeAccess (.memory 4096), .outOfRangeAccess (.memory 4097)]) = true := by decide
/-- V-M13. -/
theorem test_bulk_load_stops_at_vx :
    after 0xF265 (poke 0x300 [0xA, 0xB, 0xC, 0xD] { regs [(3, 9)] with i := 0x300 }) (fun t => t.reg 0 == 0xA && t.reg 1 == 0xB &&
      t.reg 2 == 0xC && t.reg 3 == 9 && t.i == 0x300) = true := by decide
/-- V-M15. -/
theorem test_bulk_load_past_the_end :
    after 0xF165 (poke 0xFFF [0x55] { regs [(0, 7), (1, 7)] with i := 0xFFF }) (fun t => t.reg 0 == 0x55 && t.reg 1 == 0 &&
      t.conds == [.outOfRangeAccess (.memory 4096)]) = true := by decide

/-! ## Display -/

/-- L1-5, step 1: the fourteen pixels of the glyph. -/
theorem test_drw_glyph :
    after 0xD015 State.reset (fun t => t.reg 0xF == 0 && t.rdraw && litPixels t == 14 &&
      [(0, 0), (0, 1), (0, 2), (0, 3), (0, 4), (1, 0), (1, 4), (2, 0), (2, 4), (3, 0), (3, 1), (3, 2), (3, 3), (3, 4)].all
        fun p => t.pixel p.1 p.2) = true := by decide
/-- V-D2 and V-D4. -/
theorem test_drw_wraps_and_reads_vf_first :
    (after 0xD011 (poke 0x300 [0xFF] { regs [(0, 62), (1, 31)] with i := 0x300 }) (fun t => litPixels t == 8 &&
        [62, 63, 0, 1, 2, 3, 4, 5].all fun px => t.pixel px 31) &&
      after 0xDF01 (poke 0x300 [0x80] { regs [(0xF, 10), (0, 3)] with i := 0x300 }) (fun t => litPixels t == 1 && t.pixel 10 3 &&
        t.reg 0xF == 0)) = true := by decide
/-- V-D5, step 2. -/
theorem test_cls :
    after 0x00E0 (State.reset.setPixel 5 5 true) (fun t => litPixels t == 0 && t.rdraw && t.pc == 0x202) = true := by decide

/-! ## Input and timers -/

/-- V-K1, V-K5. -/
theorem test_skp :
    (after 0xE29E { regs [(2, 5)] with key := State.reset.key.set 5 true } (okAt 0x204) &&
      after 0xE29E { regs [(2, 16)] with key := State.reset.key.set 0 true } (fun t => t.pc == 0x202 &&
        t.conds == [.outOfRangeAccess (.key 16)])) = true := by decide
/-- V-K4, V-K6. -/
theorem test_sknp :
    (after 0xE2A1 { regs [(2, 5)] with key := State.reset.key.set 5 true } (okAt 0x202) &&
      after 0xE2A1 (regs [(2, 16)]) (fun t => t.pc == 0x204 && t.conds == [.outOfRangeAccess (.key 16)])) = true := by decide
/-- V-K7. -/
theorem test_ld_k_waits :
    after 0xF30A { State.reset with key := State.reset.key.set 4 true }
      (fun t => okAt 0x202 t && t.run == .awaitingKey 3 && t.reg 3 == 0) = true := by decide
/-- V-K8, step 2. -/
theorem test_poll_takes_the_lowest_key :
    let t := nextOf (step { State.reset with run := .awaitingKey 3, key := (State.reset.key.set 9 true).set 4 true })
    t.reg 3 = 4 ∧ t.run = .running ∧ t.pc = 0x200 := by decide
/-- V-T1, V-T4. -/
theorem test_ld_vx_dt :
    (after 0xF507 { State.reset with dt := 0x3C } (fun t => okAt 0x202 t && t.reg 5 == 0x3C && t.dt == 0x3C) &&
      after 0xFF07 { regs [(0xF, 1)] with dt := 0x21 } (fun t => t.reg 0xF == 0x21)) = true := by decide
/-- V-T2. -/
theorem test_ld_dt_vx : after 0xF515 (regs [(5, 0x0A)]) (fun t => okAt 0x202 t && t.dt == 0x0A && t.st == 0) = true := by decide
/-- V-T3. -/
theorem test_ld_st_vx :
    after 0xF618 (regs [(6, 5)]) (fun t => okAt 0x202 t && t.st == 5 && t.dt == 0 && soundOn t) = true := by decide
/-- V-T5, V-T6, V-T7. -/
theorem test_tick :
    (tick { State.reset with dt := 1 }).dt = 0 ∧ (tick { State.reset with st := 3 }).st = 2 ∧ (tick State.reset).dt = 0 ∧
    (tick { State.reset with dt := 5, run := .faulted .stackOverflow }).dt = 4 := by decide

/-! ## Host operations -/

/-- L1-1. -/
theorem test_load :
    let t := (load [0x60, 0x05, 0x12, 0x00] State.reset).1
    t.readByte 0x200 = 0x60 ∧ t.readByte 0x201 = 0x05 ∧ t.readByte 0x202 = 0x12 ∧ t.readByte 0x203 = 0 ∧
    t.readByte 0 = 0xF0 ∧ t.readByte 0x1FF = 0 ∧ t.mem.wf = true ∧ (load [0x60] State.reset).2 = ⟨none, []⟩ := by decide
/-- V-H6. -/
theorem test_set_key_out_of_range : setKey 16 true State.reset = (State.reset, [.outOfRangeAccess (.key 16)]) := by decide
/-- V-H7. -/
theorem test_reset_clears_a_fault :
    resetOperation (poke 0x200 [0x22] { State.reset with run := .faulted .stackOverflow, sp := 16 }) = State.reset := by decide
/-- L1-8, V-H4. -/
theorem test_peek_out_of_range :
    peekReg 20 State.reset = (0, [.outOfRangeAccess (.register 20)]) ∧
    peekMem 5000 State.reset = (0, [.outOfRangeAccess (.memory 5000)]) ∧
    peekPixel 64 0 State.reset = (0, [.outOfRangeAccess (.pixel 64 0)]) := by decide
/-- The memory list drops a byte written back to its reset contents, the font's among them. -/
theorem test_memory_stays_canonical :
    Memory.write (Memory.write [] 0x300 7) 0x300 0 = [] ∧ Memory.write (Memory.write [] 0 7) 0 0xF0 = [] ∧
    Memory.write (Memory.write [] 0x301 7) 0x300 8 = [(0x300, 8), (0x301, 7)] := by decide

/-! ## Witnesses: each meets every hypothesis of the statement it is named after -/

/-- The state with the word `w` placed at PC. -/
def placed (w : Nat) (s : State) : State := s.withFetchWord 16 w

/-- A state whose fault is latched as CALL latches it. -/
def overflowed : State := { State.reset with sp := 16, run := .faulted .stackOverflow }

theorem witness_DecodeOfEncodeIsTheInstruction :
    WellFormed (.sys 0x0FB) ∧ WellFormed .cls ∧ WellFormed (.drw 15 15 15) ∧ WellFormed (.jp 0xFFF) := by decide
theorem witness_EncodeOfDecodeIsTheWord :
    decode 0x0000 = .instruction (.sys 0) ∧ decode 0x00E0 = .instruction .cls ∧ decode 0xFF65 = .instruction (.ldVxMem 15) := by
  decide
theorem witness_UnknownWordsAreTheFiveSpaces :
    decode 0x5001 = .unknown 0x5001 ∧ decode 0x8008 = .unknown 0x8008 ∧ decode 0x9FFF = .unknown 0x9FFF ∧
    decode 0xE0A0 = .unknown 0xE0A0 ∧ decode 0xFF66 = .unknown 0xFF66 ∧ decode 0x800E ≠ .unknown 0x800E := by decide
theorem witness_MemReadIsBounded_in : (4095 : Nat) < 4096 ∧ memRead 4095 State.reset = (0, State.reset) := by decide
theorem witness_MemReadIsBounded_out :
    4096 ≤ (4096 : Nat) ∧
    memRead 4096 State.reset = (0, { State.reset with conds := [.outOfRangeAccess (.memory 4096)] }) := by decide
theorem witness_MemWriteIsBounded_in :
    State.reset.mem.wf = true ∧ (4095 : Nat) < 4096 ∧ (memWrite 4095 7 State.reset).readByte 4095 = 7 := by decide
theorem witness_MemWriteIsBounded_out :
    State.reset.mem.wf = true ∧ 4096 ≤ (4096 : Nat) ∧ (memWrite 4096 7 State.reset).mem = [] := by decide
theorem witness_StepRunsTheDecodedInstruction :
    let s := placed 0x6005 State.reset
    s.run = .running ∧
    decode (wordOfBytes (s.readByte s.pc.toNat) (s.readByte (s.pc.toNat + 1))) = .instruction (.ldImm 0 5) := by decide
theorem witness_UnknownWordIsASignalledNoOp :
    let s := placed 0x8128 State.reset
    s.run = .running ∧ wordOfBytes (s.readByte s.pc.toNat) (s.readByte (s.pc.toNat + 1)) = 0x8128 ∧
    decode 0x8128 = .unknown 0x8128 := by decide
theorem witness_FaultedStepReportsTheFaultAgain :
    overflowed.run = .faulted .stackOverflow ∧
    ({ State.reset with run := .faulted .stackUnderflow } : State).run = .faulted .stackUnderflow := by decide
theorem witness_PollTakesTheLowestPressedKey_none :
    let s : State := { State.reset with run := .awaitingKey 15 }
    s.run = .awaitingKey 15 ∧ ∀ k, s.keyPressed k = false :=
  ⟨rfl, (lowestPressed_none _).1 rfl⟩
theorem witness_PollTakesTheLowestPressedKey_highest :
    let s : State := { State.reset with run := .awaitingKey 0, key := State.reset.key.set 15 true }
    s.run = .awaitingKey 0 ∧ s.keyPressed 15 = true ∧ ∀ j, j < 15 → s.keyPressed j = false := by decide
theorem witness_PollTakesTheLowestPressedKey_lowest :
    let s : State := { State.reset with run := .awaitingKey 15, key := (State.reset.key.set 9 true).set 0 true }
    s.run = .awaitingKey 15 ∧ s.keyPressed 0 = true ∧ ∀ j, j < 0 → s.keyPressed j = false := by decide
theorem witness_RedrawIsRaisedByClsAndDrwOnly :
    let s := placed 0x00E0 State.reset
    s.run = .running ∧ step s = .next (nextOf (step s)) ∧ (nextOf (step s)).rdraw = true := ⟨rfl, rfl, rfl⟩
theorem witness_ConditionsOfAStep_unknown :
    let s := placed 0x8128 State.reset
    s.run = .running ∧ step s = .next (nextOf (step s)) ∧ (nextOf (step s)).conds = [.unknownOpcode 0x200 0x8128] :=
  ⟨rfl, rfl, rfl⟩
theorem witness_ConditionsOfAStep_memory :
    let s := placed 0xF333 { State.reset with i := 0xFFE }
    s.run = .running ∧ step s = .next (nextOf (step s)) ∧
    (nextOf (step s)).conds = [.outOfRangeAccess (.memory 4096)] := ⟨rfl, rfl, rfl⟩
theorem witness_ConditionsOfAStep_key :
    let s := placed 0xE29E (regs [(2, 16)])
    s.run = .running ∧ step s = .next (nextOf (step s)) ∧ (nextOf (step s)).conds = [.outOfRangeAccess (.key 16)] :=
  ⟨rfl, rfl, rfl⟩
theorem witness_ConditionsOfAStep_sprite :
    let s := placed 0xD012 { State.reset with i := 0xFFF }
    s.run = .running ∧ step s = .next (nextOf (step s)) ∧ (nextOf (step s)).conds = [.outOfRangeAccess (.memory 4096)] :=
  ⟨rfl, rfl, rfl⟩
theorem witness_ConditionsOfAStep_fault :
    let s := placed 0x00EE State.reset
    s.run = .running ∧ step s = .next (nextOf (step s)) ∧ (nextOf (step s)).run = .faulted .stackUnderflow := ⟨rfl, rfl, rfl⟩
theorem witness_PlacedWordRunsNext : State.reset.mem.wf = true ∧ decode 0xF30A = .instruction (.ldVxK 3) := by decide
theorem witness_CopyAndLogicWriteOnlyTheDestination :
    let s := regs [(0xF, 0xF0), (0xB, 0x3C)]
    ((Instr.xorReg 0xF 0xB, 0xCC) : Instr × Byte) ∈ [(.ldReg 0xF 0xB, s.reg 0xB), (.orReg 0xF 0xB, s.reg 0xF ||| s.reg 0xB),
      (.andReg 0xF 0xB, s.reg 0xF &&& s.reg 0xB), (.xorReg 0xF 0xB, s.reg 0xF ^^^ s.reg 0xB)] := by decide
theorem witness_SubtractSetsNoBorrowThenDifference :
    let s := regs [(0xA, 3), (0xF, 5)]
    ((Instr.subnReg 0xA 0xF, 5, 3) : Instr × Nat × Nat) ∈
      [(Instr.subReg 0xA 0xF, (s.reg 0xA).toNat, (s.reg 0xF).toNat), (Instr.subnReg 0xA 0xF, (s.reg 0xF).toNat, (s.reg 0xA).toNat)] := by
  decide
theorem witness_ShiftsCaptureTheBitShiftedOut :
    let s := regs [(0xF, 0x80)]
    ((Instr.shlReg 0xF 0, 0, 1) : Instr × Nat × Nat) ∈
      [(Instr.shrReg 0xF 0, (s.reg 0xF).toNat / 2, (s.reg 0xF).toNat % 2),
        (Instr.shlReg 0xF 0, (s.reg 0xF).toNat * 2 % 256, (s.reg 0xF).toNat / 128)] := by decide
theorem witness_RandomIsAFreeByteUnderTheMask :
    (0 : Byte) = 0 ∧ (nextOf (exec (.rnd 0xF 0) (regs [(0xF, 9)]))).reg 0xF = Config.rand 0 &&& 0#8 := ⟨rfl, rfl⟩
theorem witness_JumpsSetOnlyThePc :
    let s := regs [(0, 0xFF)]
    ((Instr.jpV0 0xFFF, 0x10FE) : Instr × Nat) ∈
      [(Instr.jp 0xFFF, (0xFFF#12).toNat), (Instr.jpV0 0xFFF, (0xFFF#12).toNat + (s.reg 0).toNat)] := by decide
theorem witness_CallPushesItsOwnAddress_last_slot : ({ State.reset with sp := 15 } : State).sp.val < 16 := by decide
theorem witness_CallPushesItsOwnAddress_full : ({ State.reset with sp := 16 } : State).sp.val = 16 := by decide
theorem witness_ReturnGoesPastTheCall_pop :
    ({ State.reset with sp := 1 } : State).sp.val = (0 : Fin 16).val + 1 ∧
    ({ State.reset with sp := 16 } : State).sp.val = (15 : Fin 16).val + 1 := by decide
theorem witness_ReturnGoesPastTheCall_empty : State.reset.sp.val = 0 := by decide
theorem witness_CallThenReturnContinuesAfterTheCall :
    let s : State := { State.reset with sp := 15 }
    let t := nextOf (exec (.call 0x300) s)
    s.sp.val < 16 ∧ exec (.call 0x300) s = .next t ∧
    exec .ret { t with pc := 0x310 } = .next (nextOf (exec .ret { t with pc := 0x310 })) := ⟨by decide, rfl, rfl⟩
theorem witness_OnlyTheCallStackFaults_ret :
    let s := placed 0x00EE State.reset
    SafeState s ∧ step s = .next (nextOf (step s)) ∧ (nextOf (step s)).run = .faulted .stackUnderflow :=
  ⟨(fun _ h => nomatch h), rfl, rfl⟩
theorem witness_OnlyTheCallStackFaults_call :
    let s := placed 0x2300 { State.reset with sp := 16 }
    SafeState s ∧ step s = .next (nextOf (step s)) ∧ (nextOf (step s)).run = .faulted .stackOverflow :=
  ⟨(fun _ h => nomatch h), rfl, rfl⟩
theorem witness_FaultEntryIsPrecise :
    let s : State := { State.reset with sp := 16 }
    let t := nextOf (exec (.call 0x300) s)
    SafeState s ∧ exec (.call 0x300) s = .next t ∧ t.run = .faulted .stackOverflow := ⟨(fun _ h => nomatch h), rfl, rfl⟩
theorem witness_RegisterSkipsMoveOnlyThePc :
    let s := regs [(3, 7), (4, 7)]
    s.reg 3 = 7 ∧ s.reg 3 = s.reg 4 ∧ s.reg 3 ≠ 8 ∧ s.reg 3 ≠ s.reg 5 := by decide
theorem witness_BcdStoresThreeDigits :
    (poke 0x300 [7] State.reset).mem.wf = true ∧ (poke 0xFFF [7] { State.reset with i := 0xFFF }).mem.wf = true := by decide
theorem witness_BulkStoreWritesV0ToVx :
    let s : State := { State.reset with i := 0xFFE }
    s.mem.wf = true ∧ (1 : RegIx) ≤ 3 ∧ s.i.toNat + (1 : RegIx).val < 4096 ∧
    ∀ k : RegIx, k ≤ 3 → 0xFFD ≠ s.i.toNat + k.val := by decide
theorem witness_BulkLoadUndoesBulkStore :
    let s : State := { regs [(0, 7), (15, 9)] with i := 0xFF0 }
    let t := nextOf (exec (.ldMemVx 15) s)
    s.mem.wf = true ∧ s.i.toNat + (15 : RegIx).val < 4096 ∧ exec (.ldMemVx 15) s = .next t ∧
    exec (.ldVxMem 15) { t with v := State.reset.v } = .next (nextOf (exec (.ldVxMem 15) { t with v := State.reset.v })) :=
  ⟨by decide, by decide, rfl, rfl⟩
theorem witness_DrawXorsTheSpriteAndReportsCollision_collision :
    ∃ px py, (State.reset.setPixel 63 31 true).pixel px py = true ∧
      SpriteBit ((regs [(0, 63), (1, 31)]).setPixel 63 31 true) 0 1 1 px py :=
  ⟨63, 31, by decide, 0, 0, by decide⟩
theorem witness_DrawXorsTheSpriteAndReportsCollision_clear :
    ∀ px py, SpriteBit State.reset 0 1 15 px py → State.reset.pixel px py = false := by
  intro px py _
  simp [State.pixel, State.reset, Framebuffer.clear]
theorem witness_DrawingTwiceRestoresTheScreen :
    let s := regs [(0, 63), (1, 31)]
    let t := nextOf (exec (.drw 0 1 2) s)
    (0 : RegIx) ≠ vf ∧ (1 : RegIx) ≠ vf ∧ exec (.drw 0 1 2) s = .next t ∧
    exec (.drw 0 1 2) t = .next (nextOf (exec (.drw 0 1 2) t)) := ⟨by decide, by decide, rfl, rfl⟩
theorem witness_KeySkipsReadTheKeypad :
    let s : State := { regs [(2, 15), (3, 16)] with key := State.reset.key.set 15 true }
    ((Instr.skp 2, true) : Instr × Bool) ∈
      [(Instr.skp 2, s.keyPressed (s.reg 2).toNat), (Instr.sknp 2, !s.keyPressed (s.reg 2).toNat)] ∧
    ((Instr.sknp 3, true) : Instr × Bool) ∈
      [(Instr.skp 3, s.keyPressed (s.reg 3).toNat), (Instr.sknp 3, !s.keyPressed (s.reg 3).toNat)] ∧
    16 ≤ (s.reg 3).toNat := by decide
theorem witness_InstructionsWriteOnlyWhatTheRulesName :
    exec (.addReg 0 1) State.reset = .next (nextOf (exec (.addReg 0 1) State.reset)) ∧
    ¬ writesReg (.addReg 0 1) 2 ∧ ¬ writesIndex (.addReg 0 1) ∧ ¬ writesRun (.addReg 0 1) :=
  ⟨rfl, by simp [writesReg, vf], fun h => h, fun h => h⟩
theorem witness_InstructionsStoreOnlyFromI :
    let s : State := { State.reset with i := 0x300 }
    s.mem.wf = true ∧ exec (.ldB 3) s = .next (nextOf (exec (.ldB 3) s)) ∧
    ∀ k, k < storedBytes (.ldB 3) → 0x303 ≠ s.indexed k := ⟨by decide, rfl, by decide⟩
theorem witness_EveryInstructionMovesThePcByItsClass :
    exec (.seImm 0 0) State.reset = .next (nextOf (exec (.seImm 0 0) State.reset)) ∧
    (nextOf (exec (.seImm 0 0) State.reset)).pc = 0x204 := ⟨rfl, rfl⟩
theorem witness_LoadCopiesTheProgram_largest :
    State.reset.mem.wf = true ∧ (List.replicate 3584 (0xAA : Byte)).length ≤ 3584 :=
  ⟨rfl, Nat.le_of_eq List.length_replicate⟩
theorem witness_LoadCopiesTheProgram_too_large :
    State.reset.mem.wf = true ∧ 3584 < (List.replicate 3585 (0xAA : Byte)).length :=
  ⟨rfl, Nat.lt_of_lt_of_eq (Nat.lt_succ_self 3584) List.length_replicate.symm⟩
theorem witness_SetKeyWritesOneKey :
    (setKey 15 true State.reset).1.keyPressed 15 = true ∧ (setKey 16 true State.reset).1 = State.reset := by decide
theorem witness_PeeksReadAndNeverMutate :
    peekReg 15 (regs [(15, 7)]) = (7, []) ∧ peekReg 16 State.reset = (0, [.outOfRangeAccess (.register 16)]) ∧
    peekMem 4095 (poke 4095 [7] State.reset) = (7, []) ∧ peekPixel 63 31 (State.reset.setPixel 63 31 true) = (1, []) ∧
    peekPixel 63 32 State.reset = (0, [.outOfRangeAccess (.pixel 63 32)]) := by decide
theorem witness_OnlyStepAndResetWriteRun :
    Operation.tick ≠ .step ∧ Operation.tick ≠ .reset ∧ perform .tick overflowed = .next (tick overflowed, .done []) :=
  ⟨by decide, by decide, rfl⟩
theorem witness_FaultStaysLatchedUntilReset :
    Operation.reset ∉ [Operation.step, .load [0x60], .setKey 3 true, .tick] ∧ overflowed.run = .faulted .stackOverflow ∧
    ∃ t rs, runOperations [.step, .load [0x60], .setKey 3 true, .tick] overflowed = .next (t, rs) := ⟨by decide, rfl, _, _, rfl⟩
theorem witness_StepKeepsTheInvariant :
    Inv (placed 0x00EE State.reset) ∧ step (placed 0x00EE State.reset) = .next (nextOf (step (placed 0x00EE State.reset))) :=
  ⟨⟨by decide, ⟨nofun, nofun⟩, nofun⟩, rfl⟩
theorem witness_EveryScheduleKeepsTheInvariant : Inv overflowed :=
  ⟨by decide, ⟨fun _ => rfl, nofun⟩, nofun⟩
theorem witness_HiddenStateNeverReachesTheProgram :
    let s := placed 0x00E0 { State.reset with sp := 1 }
    let s' : State := { s with st := 9, rdraw := true, stk := s.stk.set 1 0x456 }
    SameForProgram s s' ∧ s ≠ s' ∧ step s = .next (nextOf (step s)) ∧ step s' = .next (nextOf (step s')) := by
  refine ⟨⟨rfl, rfl, rfl, rfl, rfl, ?_, rfl, rfl, rfl, rfl, rfl⟩, by decide, rfl, rfl⟩
  decide
theorem witness_EndedRunIsAFixedPoint : EndsAt 0x200 (placed 0x1200 State.reset) := ⟨rfl, rfl, by decide, by decide⟩
theorem witness_EndedRunIsAFixedPoint_last : EndsAt 0xFFE (placed 0x1FFE { State.reset with pc := 0xFFE }) :=
  ⟨rfl, rfl, by decide, by decide⟩

end Sys2Proof.Tests
end

section
/-! The bounds of a memory access (20_memory.md R31, R32). -/

namespace Sys2Proof.Machine

theorem memRead_of_lt {a : Nat} (s : State) (h : a < 4096) : memRead a s = (s.mem.read a, s) := by
  rw [memRead, readByte_of_lt s h, checkAddress_eq, outOfRange_of_lt h, List.append_nil]

theorem memRead_of_le {a : Nat} (s : State) (h : 4096 ≤ a) :
    memRead a s = (0, { s with conds := s.conds ++ [.outOfRangeAccess (.memory a)] }) := by
  rw [memRead, readByte_of_le s h, checkAddress_eq, outOfRange_of_le h]

theorem memWrite_of_lt {a : Nat} (b : Byte) (s : State) (h : a < 4096) :
    memWrite a b s = { s with mem := s.mem.write a b } := by
  rw [memWrite_eq, if_pos h, outOfRange_of_lt h, List.append_nil]

theorem memWrite_of_le {a : Nat} (b : Byte) (s : State) (h : 4096 ≤ a) :
    memWrite a b s = { s with conds := s.conds ++ [.outOfRangeAccess (.memory a)] } := by
  rw [memWrite_eq, if_neg (Nat.not_lt.2 h), outOfRange_of_le h]

/-- Settles O6, by the two ranges of the address. -/
theorem memReadIsBounded : Obligations.MemReadIsBounded :=
  fun _ s => ⟨memRead_of_lt s, memRead_of_le s⟩

/-- Settles O7, by the two ranges of the address. In range, the bytes are those of reading after writing, which rests on the
canonical form of the memory list; the rest of the state is kept because the write updates the memory field only. -/
theorem memWriteIsBounded : Obligations.MemWriteIsBounded := by
  intro a b s hs
  refine ⟨fun h => ⟨fun a' => ?_, ?_⟩, memWrite_of_le b s⟩
  · simp only [readByte_memWrite a a' b hs, h, and_true]
  · rw [memWrite_of_lt b s h]

end Sys2Proof.Machine
end

section
/-! LD Vx, nn (42_register_alu.md R77), and what a write of the general registers and PC leaves alone. -/

namespace Sys2Proof.Machine

theorem exec_ldImm (x : RegIx) (nn : Byte) (s : State) : exec (.ldImm x nn) s = .next (advance (s.setReg x nn)) := rfl

/-- The frame every ALU instruction shares: whatever the general registers and PC become, nothing else moves. -/
theorem sameOutsideRegisters_with_v_pc (s : State) (v : Vector Byte 16) (pc : Word) :
    SameOutsideRegisters s { s with v := v, pc := pc } where
  memory _ := rfl
  index := rfl
  sp := rfl
  slots _ := rfl
  pixels _ _ := rfl
  delay := rfl
  sound := rfl
  keys _ := rfl
  redraw := rfl
  run := rfl
  conds := rfl

theorem sameOutsideRegisters_advance_setReg (s : State) (x : RegIx) (b : Byte) :
    SameOutsideRegisters s (advance (s.setReg x b)) :=
  sameOutsideRegisters_with_v_pc s (s.v.set x b) (s.pc + 2)

/-- Settles O17. The instruction is one register write and the generic advance: the registers are those of reading after
writing, for VF as for any other. -/
theorem loadImmediateSetsTheRegister : Obligations.LoadImmediateSetsTheRegister := by
  intro s x nn
  have registers (r : RegIx) : (advance (s.setReg x nn)).reg r = if r = x then nn else s.reg r := by
    rw [advance_reg, setReg_reg]
  exact ⟨_, exec_ldImm x nn s, registers, by rw [advance_pc, setReg_pc],
    sameOutsideRegisters_advance_setReg s x nn⟩

end Sys2Proof.Machine
end

section
/-! The decoder and the encoder are inverse (30_encoding.md sections 2 and 3). -/

namespace Sys2Proof

/-! ## A word decoded after it was encoded -/

theorem formatA_zero_eq_iff (nnn c : Addr) : formatA 0x0 nnn = formatA 0x0 c ↔ nnn = c := by
  refine ⟨fun h => ?_, congrArg _⟩
  rw [← opNNN_formatA 0x0 nnn, h, opNNN_formatA]

theorem wellFormed_sys_iff (nnn : Addr) : WellFormed (.sys nnn) ↔ nnn ≠ 0x0E0#12 ∧ nnn ≠ 0x0EE#12 := by
  simp [WellFormed, Instr.wellFormed]

/-- A well-formed SYS is none of the two words that take precedence over its row. -/
theorem decodeGroup0_formatA {nnn : Addr} (h : WellFormed (.sys nnn)) :
    decodeGroup0 (formatA 0x0 nnn) = .instruction (.sys nnn) := by
  obtain ⟨hcls, hret⟩ := (wellFormed_sys_iff nnn).1 h
  have hcls' : formatA 0x0 nnn ≠ 0x00E0#16 := mt (formatA_zero_eq_iff nnn 0x0E0#12).1 hcls
  have hret' : formatA 0x0 nnn ≠ 0x00EE#16 := mt (formatA_zero_eq_iff nnn 0x0EE#12).1 hret
  rw [decodeGroup0, if_neg hcls', if_neg hret', opNNN_formatA]

/-- Settles O1, by the rows of the opcode map: each field is read back from the format it was written in. Only SYS needs its
well-formedness. -/
theorem decodeOfEncodeIsTheInstruction : Obligations.DecodeOfEncodeIsTheInstruction := by
  intro i h
  cases i with
  | sys nnn => simpa [encode, decode] using decodeGroup0_formatA h
  | cls | ret => rfl
  | jp | call | ldI | jpV0 => simp [encode, decode]
  | seImm | sneImm | ldImm | addImm | rnd => simp [encode, decode]
  | seReg | sneReg | drw => simp [encode, decode]
  | ldReg | orReg | andReg | xorReg | addReg | subReg | shrReg | subnReg | shlReg =>
    simp [encode, decode, decodeGroup8]
  | skp | sknp => simp [encode, decode, decodeGroupE]
  | ldVxDt | ldVxK | ldDtVx | ldStVx | addI | ldF | ldB | ldMemVx | ldVxMem =>
    simp [encode, decode, decodeGroupF]

/-! ## A word put together again from its fields -/

theorem formatA_fields {w : Word} {a : Fin 16} (ha : opMajor w = a) : formatA a (opNNN w) = w := by
  subst ha
  apply BitVec.eq_of_toNat_eq
  rw [formatA_toNat, opMajor_val, opNNN_toNat]
  omega

theorem formatXNN_fields {w : Word} {a : Fin 16} {nn : Byte} (ha : opMajor w = a) (hnn : opNN w = nn) :
    formatXNN a (opX w) nn = w := by
  subst ha hnn
  apply BitVec.eq_of_toNat_eq
  rw [formatXNN_toNat, opMajor_val, opX_val, opNN_toNat]
  omega

theorem formatXYN_fields {w : Word} {a n : Fin 16} (ha : opMajor w = a) (hn : opN w = n) :
    formatXYN a (opX w) (opY w) n = w := by
  subst ha hn
  apply BitVec.eq_of_toNat_eq
  rw [formatXYN_toNat, opMajor_val, opX_val, opY_val, opN_val]
  omega

/-- What decoding `w` may answer: an instruction only if it is well formed and its word is `w`, `Unknown` only with `w`. -/
def Decoded.ReadFrom (w : Word) : Decoded → Prop
  | .instruction i => encode i = w ∧ WellFormed i
  | .unknown op => op = w

theorem decodeGroup0_readFrom {w : Word} (ha : opMajor w = 0x0) : (decodeGroup0 w).ReadFrom w := by
  have hw : formatA 0x0 (opNNN w) = w := formatA_fields ha
  unfold decodeGroup0
  split
  · next h => exact ⟨h.symm, rfl⟩
  · next hcls =>
    split
    · next h => exact ⟨h.symm, rfl⟩
    · next hret =>
      refine ⟨hw, (wellFormed_sys_iff _).2 ⟨fun h => hcls ?_, fun h => hret ?_⟩⟩
      · rw [← hw, h]; rfl
      · rw [← hw, h]; rfl

theorem decodeGroup8_readFrom {w : Word} (ha : opMajor w = 0x8) : (decodeGroup8 w).ReadFrom w := by
  unfold decodeGroup8
  split
  iterate 9 next hn => exact ⟨formatXYN_fields ha hn, rfl⟩
  exact rfl

theorem decodeGroupE_readFrom {w : Word} (ha : opMajor w = 0xE) : (decodeGroupE w).ReadFrom w := by
  unfold decodeGroupE
  repeat' split
  iterate 2 next hnn => exact ⟨formatXNN_fields ha hnn, rfl⟩
  exact rfl

theorem decodeGroupF_readFrom {w : Word} (ha : opMajor w = 0xF) : (decodeGroupF w).ReadFrom w := by
  unfold decodeGroupF
  repeat' split
  iterate 9 next hnn => exact ⟨formatXNN_fields ha hnn, rfl⟩
  exact rfl

theorem decode_readFrom (w : Word) : (decode w).ReadFrom w := by
  unfold decode
  split
  case h_1 ha => exact decodeGroup0_readFrom ha
  case h_2 ha | h_3 ha | h_11 ha | h_12 ha => exact ⟨formatA_fields ha, rfl⟩
  case h_4 ha | h_5 ha | h_7 ha | h_8 ha | h_13 ha => exact ⟨formatXNN_fields ha rfl, rfl⟩
  case h_6 ha | h_10 ha =>
    split
    · next hn => exact ⟨formatXYN_fields ha (by simpa using hn), rfl⟩
    · exact rfl
  case h_9 ha => exact decodeGroup8_readFrom ha
  case h_14 ha => exact ⟨formatXYN_fields ha rfl, rfl⟩
  case h_15 ha => exact decodeGroupE_readFrom ha
  case h_16 =>
    simp only [imp_false, opMajor_eq_iff] at *
    exact decodeGroupF_readFrom ((opMajor_eq_iff w 0xF).2 (by omega))

/-- Settles O2: in every group the answer's word is put together again from the fields read. -/
theorem encodeOfDecodeIsTheWord : Obligations.EncodeOfDecodeIsTheWord := by
  intro w i h
  have := decode_readFrom w
  rwa [h] at this

/-! ## The unknown words -/

theorem decodeGroup8_eq_unknown_iff (w : Word) :
    decodeGroup8 w = .unknown w ↔ 8 ≤ w.toNat % 16 ∧ w.toNat % 16 ≠ 0xE := by
  unfold decodeGroup8
  split
  iterate 9 next hn => simp [(opN_eq_iff w _).1 hn]
  case h_10 =>
    simp only [imp_false, opN_eq_iff] at *
    refine iff_of_true trivial ?_
    omega

theorem decodeGroupE_eq_unknown_iff (w : Word) :
    decodeGroupE w = .unknown w ↔ w.toNat % 256 ≠ 0x9E ∧ w.toNat % 256 ≠ 0xA1 := by
  simp only [decodeGroupE, opNN_eq_iff]
  split_ifs <;> simp_all

theorem decodeGroupF_eq_unknown_iff (w : Word) :
    decodeGroupF w = .unknown w ↔ w.toNat % 256 ∉ [0x07, 0x0A, 0x15, 0x18, 0x1E, 0x29, 0x33, 0x55, 0x65] := by
  simp only [decodeGroupF, opNN_eq_iff]
  split_ifs <;> simp_all

theorem decode_eq_unknown_iff (w : Word) :
    decode w = .unknown w ↔
      ((w.toNat / 4096 = 0x5 ∨ w.toNat / 4096 = 0x9) ∧ w.toNat % 16 ≠ 0) ∨
      (w.toNat / 4096 = 0x8 ∧ 8 ≤ w.toNat % 16 ∧ w.toNat % 16 ≠ 0xE) ∨
      (w.toNat / 4096 = 0xE ∧ w.toNat % 256 ≠ 0x9E ∧ w.toNat % 256 ≠ 0xA1) ∨
      (w.toNat / 4096 = 0xF ∧ w.toNat % 256 ∉ [0x07, 0x0A, 0x15, 0x18, 0x1E, 0x29, 0x33, 0x55, 0x65]) := by
  unfold decode
  split
  case h_2 ha | h_3 ha | h_4 ha | h_5 ha | h_7 ha | h_8 ha | h_11 ha | h_12 ha | h_13 ha | h_14 ha =>
    simp [(opMajor_eq_iff w _).1 ha]
  case h_1 ha =>
    simp only [(opMajor_eq_iff w _).1 ha, decodeGroup0]
    split_ifs <;> simp
  case h_6 ha | h_10 ha => simp [(opMajor_eq_iff w _).1 ha, opN_eq_iff]
  case h_9 ha => simp [(opMajor_eq_iff w _).1 ha, decodeGroup8_eq_unknown_iff]
  case h_15 ha => simp [(opMajor_eq_iff w _).1 ha, decodeGroupE_eq_unknown_iff]
  case h_16 =>
    simp only [imp_false, opMajor_eq_iff] at *
    have ha : w.toNat / 4096 = 0xF := by omega
    simp [ha, decodeGroupF_eq_unknown_iff]

/-- Settles O3: the words of the spaces, group by group; the others are instructions since `Unknown` only ever names the word
itself. -/
theorem unknownWordsAreTheFiveSpaces : Obligations.UnknownWordsAreTheFiveSpaces := by
  intro w
  refine ⟨decode_eq_unknown_iff w, fun h => ?_⟩
  have hw := decode_readFrom w
  cases hd : decode w with
  | instruction i => exact ⟨i, rfl⟩
  | unknown op =>
    rw [hd] at hw h
    exact absurd (congrArg Decoded.unknown hw) h

/-- Settles O4, by evaluating the decoder on each word. -/
theorem wordsOfTheSpecDecode : Obligations.WordsOfTheSpecDecode := by
  unfold Obligations.WordsOfTheSpecDecode
  decide

end Sys2Proof
end

section
/-! Each instruction's meaning as one composition of the shared operations, the variants of Quirks.lean resolved to the spec's
values; CALL and RET once per side of the stack's bound. -/

namespace Sys2Proof.Machine

variable (s : State) (x y : RegIx) (nn : Byte) (nnn : Addr)

theorem exec_sys : exec (.sys nnn) s = .next (advance s) := rfl
theorem exec_cls : exec .cls s = .next (advance (raiseRedraw { s with fb := Framebuffer.clear })) := rfl
theorem exec_jp : exec (.jp nnn) s = .next (jumpTo (zext16 nnn) s) := rfl
theorem exec_jpV0 : exec (.jpV0 nnn) s = .next (jumpTo (zext16 nnn + (s.reg 0).setWidth 16) s) := rfl
theorem exec_seImm : exec (.seImm x nn) s = .next (skipIf (s.reg x == nn) s) := rfl
theorem exec_sneImm : exec (.sneImm x nn) s = .next (skipIf (s.reg x != nn) s) := rfl
theorem exec_seReg : exec (.seReg x y) s = .next (skipIf (s.reg x == s.reg y) s) := rfl
theorem exec_sneReg : exec (.sneReg x y) s = .next (skipIf (s.reg x != s.reg y) s) := rfl

theorem exec_call_of_lt (h : s.sp.val < 16) :
    exec (.call nnn) s = .next (jumpTo (zext16 nnn) (push s.pc s h)) := dif_pos h

theorem exec_call_of_full (h : s.sp.val = 16) : exec (.call nnn) s = .next (takeFault .stackOverflow s) :=
  dif_neg (by simp [h])

theorem exec_ret_of_pos (h : 0 < s.sp.val) : exec .ret s = .next (jumpTo (topOfStack s h + 2) (pop s)) := dif_pos h

theorem exec_ret_of_empty (h : s.sp.val = 0) : exec .ret s = .next (takeFault .stackUnderflow s) :=
  dif_neg (by simp [h])

theorem exec_addImm : exec (.addImm x nn) s = .next (advance (s.setReg x (s.reg x + nn))) := rfl
theorem exec_ldReg : exec (.ldReg x y) s = .next (advance (s.setReg x (s.reg y))) := rfl
theorem exec_orReg : exec (.orReg x y) s = .next (advance (s.setReg x (s.reg x ||| s.reg y))) := rfl
theorem exec_andReg : exec (.andReg x y) s = .next (advance (s.setReg x (s.reg x &&& s.reg y))) := rfl
theorem exec_xorReg : exec (.xorReg x y) s = .next (advance (s.setReg x (s.reg x ^^^ s.reg y))) := rfl

theorem exec_addReg : exec (.addReg x y) s = .next (advance
    (writeFlagAndResult false x (carryFlag (s.reg x) (s.reg y)) (s.reg x + s.reg y) s)) := rfl
theorem exec_subReg : exec (.subReg x y) s = .next (advance
    (writeFlagAndResult false x (noBorrowFlag (s.reg x) (s.reg y)) (s.reg x - s.reg y) s)) := rfl
theorem exec_subnReg : exec (.subnReg x y) s = .next (advance
    (writeFlagAndResult false x (noBorrowFlag (s.reg y) (s.reg x)) (s.reg y - s.reg x) s)) := rfl
theorem exec_shrReg : exec (.shrReg x y) s = .next (advance
    (writeFlagAndResult false x (shiftedOutRight (s.reg x)) (s.reg x >>> 1) s)) := rfl
theorem exec_shlReg : exec (.shlReg x y) s = .next (advance
    (writeFlagAndResult false x (shiftedOutLeft (s.reg x)) (s.reg x <<< 1) s)) := rfl

theorem exec_rnd : exec (.rnd x nn) s =
    .next (advance ({ s with draws := s.draws + 1 }.setReg x (Config.rand s.draws &&& nn))) := rfl

theorem exec_ldI : exec (.ldI nnn) s = .next (advance (s.setI (zext16 nnn))) := rfl
theorem exec_ldF : exec (.ldF x) s = .next (advance (s.setI (glyphAddress (s.reg x)))) := rfl
theorem exec_addI : exec (.addI x) s = .next (advance
    ((s.setReg vf (indexOverflowFlag 12 s.i (s.reg x))).setI (s.i + (s.reg x).setWidth 16))) := rfl

theorem exec_ldB : exec (.ldB x) s = .next (advance (memWrite (s.i.toNat + 2) (ones (s.reg x))
    (memWrite (s.i.toNat + 1) (tens (s.reg x)) (memWrite s.i.toNat (hundreds (s.reg x)) s)))) := rfl
theorem exec_ldMemVx : exec (.ldMemVx x) s =
    .next (advance ((storeRegs s (List.range (x.val + 1)) s).setI s.i)) := rfl
theorem exec_ldVxMem : exec (.ldVxMem x) s =
    .next (advance (((List.range (x.val + 1)).foldl loadReg s).setI s.i)) := rfl

theorem exec_skp : exec (.skp x) s = .next (skipIf (s.keyPressed (s.reg x).toNat) (checkKey (s.reg x).toNat s)) := rfl
theorem exec_sknp : exec (.sknp x) s = .next (skipIf (!s.keyPressed (s.reg x).toNat) (checkKey (s.reg x).toNat s)) := rfl
theorem exec_ldVxK : exec (.ldVxK x) s = .next (advance { s with run := .awaitingKey x }) := rfl
theorem exec_ldVxDt : exec (.ldVxDt x) s = .next (advance (s.setReg x s.dt)) := rfl
theorem exec_ldDtVx : exec (.ldDtVx x) s = .next (advance { s with dt := s.reg x }) := rfl
theorem exec_ldStVx : exec (.ldStVx x) s = .next (advance { s with st := s.reg x }) := rfl

/-- DRW up to its loop over the rows, whose effect `Flips` describes. -/
theorem exec_drw (n : Rows) : ∃ t, exec (.drw x y n) s = .next (advance (raiseRedraw t)) ∧
    Flips (SpriteBit s x y n) (s.setReg vf 0) t ∧
    t.conds = s.conds ++ outOfRange ((List.range n.val).map (s.i.toNat + ·)) := execDrw_flips x y n s

end Sys2Proof.Machine
end

section
/-! What an instruction may change, said once for every instruction: the frames of 10_state.md sections 2 to 5 and 20_memory.md
section 1, and the conditions of its accesses (60_exceptions.md R106). -/

namespace Sys2Proof.Machine

/-- From `s` the instruction `i` may lead to `t`: `t` differs from `s` only in what `i` writes. Each field is proved by default
where the update does not touch its state element, so that a proof names only the fields the instruction has a say in. -/
structure Effect (i : Instr) (s t : State) : Prop where
  regs : ∀ r, ¬ writesReg i r → t.reg r = s.reg r := by intros; rfl
  index : ¬ writesIndex i → t.i = s.i := by intros; rfl
  sp : ¬ writesStack i → t.sp = s.sp := by intros; rfl
  slots : ∀ j : Fin 16, (∀ nnn, i = .call nnn → j.val ≠ s.sp.val) → t.stk[j] = s.stk[j] := by intros; rfl
  pixels : ¬ writesScreen i → t.fb = s.fb := by intros; rfl
  redraw_kept : ¬ writesScreen i → t.rdraw = s.rdraw := by intros; rfl
  redraw_raised : writesScreen i → t.rdraw = true := by intro h; exact h.elim
  delay : (∀ x, i ≠ .ldDtVx x) → t.dt = s.dt := by intros; rfl
  sound : (∀ x, i ≠ .ldStVx x) → t.st = s.st := by intros; rfl
  run : ¬ writesRun i → t.run = s.run := by intros; rfl
  keys : t.key = s.key := by rfl
  draws : (∀ x nn, i ≠ .rnd x nn) → t.draws = s.draws := by intros; rfl
  wf : s.mem.wf = true → t.mem.wf = true := by exact id
  bytes : s.mem.wf = true → ∀ a, (∀ k, k < storedBytes i → a ≠ s.indexed k) → t.readByte a = s.readByte a := by
    intros; rfl
  conds : t.conds = s.conds ++ accessConditions s i := by exact (List.append_nil _).symm

theorem setReg_reg_of_ne {s : State} {x r : RegIx} (b : Byte) (h : ¬ r = x) : (s.setReg x b).reg r = s.reg r := by
  rw [setReg_reg, if_neg h]

theorem writeFlagAndResult_reg_of_ne {s : State} {x r : RegIx} (flag result : Byte) (h : ¬ (r = x ∨ r = vf)) :
    (writeFlagAndResult false x flag result s).reg r = s.reg r := by
  obtain ⟨hx, hvf⟩ := not_or.1 h
  rw [writeFlagAndResult_reg, if_neg hx, if_neg hvf]

theorem push_slot_of_ne {s : State} (w : Word) (h : s.sp.val < 16) {j : Fin 16} (hj : j.val ≠ s.sp.val) :
    (push w s h).stk[j] = s.stk[j] := by
  simp [hj.symm]

theorem effect_skipIf {i : Instr} {s t : State} (c : Bool) (h : Effect i s t) : Effect i s (skipIf c t) := by
  rw [skipIf_eq]
  exact { h with }

theorem effect_call (nnn : Addr) (s : State) : ∃ t, exec (.call nnn) s = .next t ∧ Effect (.call nnn) s t := by
  by_cases h : s.sp.val < 16
  · exact ⟨_, exec_call_of_lt s nnn h,
      { sp := fun hn => (hn trivial).elim, slots := fun j hj => push_slot_of_ne _ h (hj nnn rfl) }⟩
  · exact ⟨_, exec_call_of_full s nnn (by omega), { run := fun hn => (hn trivial).elim }⟩

theorem effect_ret (s : State) : ∃ t, exec .ret s = .next t ∧ Effect .ret s t := by
  by_cases h : 0 < s.sp.val
  · exact ⟨_, exec_ret_of_pos s h, { sp := fun hn => (hn trivial).elim }⟩
  · exact ⟨_, exec_ret_of_empty s (by omega), { run := fun hn => (hn trivial).elim }⟩

theorem effect_drw (x y : RegIx) (n : Rows) (s : State) :
    ∃ t, exec (.drw x y n) s = .next t ∧ Effect (.drw x y n) s t := by
  obtain ⟨t, ht, hf, hc⟩ := exec_drw s x y n
  refine ⟨_, ht, ?_⟩
  have bytes (a : Nat) : t.readByte a = s.readByte a := by rw [State.readByte, hf.mem]; rfl
  exact
    { regs := fun r hr => (hf.regs r hr).trans (setReg_reg_of_ne 0 hr)
      index := fun _ => hf.i
      sp := fun _ => hf.sp
      slots := fun j _ => congrArg (·[j]) hf.stk
      pixels := fun hn => (hn trivial).elim
      redraw_kept := fun hn => (hn trivial).elim
      redraw_raised := fun _ => rfl
      delay := fun _ => hf.dt
      sound := fun _ => hf.st
      run := fun _ => hf.run
      keys := hf.key
      draws := fun _ => hf.draws
      wf := fun h => (congrArg Memory.wf hf.mem).trans h
      bytes := fun _ a _ => bytes a
      conds := hc }

theorem effect_checkKey {i : Instr} {s : State} (x : RegIx) (hi : i = .skp x ∨ i = .sknp x) :
    Effect i s (checkKey (s.reg x).toNat s) := by
  rw [checkKey_eq]
  obtain rfl | rfl := hi <;> exact { conds := rfl }

theorem memWrite_three_eq (a : Nat) (b₀ b₁ b₂ : Byte) (s : State) : ∃ m,
    memWrite (a + 2) b₂ (memWrite (a + 1) b₁ (memWrite a b₀ s)) =
      { s with mem := m, conds := s.conds ++ outOfRange [a, a + 1, a + 2] } := by
  simp only [memWrite_eq]
  rw [outOfRange_cons_cons, outOfRange_cons_cons, ← List.append_assoc, ← List.append_assoc]
  exact ⟨_, rfl⟩

theorem wf_memWrite_three (a : Nat) (b₀ b₁ b₂ : Byte) {s : State} (hs : s.mem.wf = true) :
    (memWrite (a + 2) b₂ (memWrite (a + 1) b₁ (memWrite a b₀ s))).mem.wf = true :=
  wf_memWrite _ _ (wf_memWrite _ _ (wf_memWrite _ _ hs))

theorem readByte_memWrite_three (a a' : Nat) (b₀ b₁ b₂ : Byte) {s : State} (hs : s.mem.wf = true) (ha' : a' < 4096) :
    (memWrite (a + 2) b₂ (memWrite (a + 1) b₁ (memWrite a b₀ s))).readByte a' =
      if a' = a then b₀ else if a' = a + 1 then b₁ else if a' = a + 2 then b₂ else s.readByte a' := by
  rw [readByte_memWrite _ _ _ (wf_memWrite _ _ (wf_memWrite _ _ hs)), readByte_memWrite _ _ _ (wf_memWrite _ _ hs),
    readByte_memWrite _ _ _ hs]
  grind

theorem effect_ldB (x : RegIx) (s : State) : ∃ t, exec (.ldB x) s = .next t ∧ Effect (.ldB x) s t := by
  refine ⟨_, exec_ldB s x, ?_⟩
  generalize hu : memWrite (s.i.toNat + 2) _ _ = u
  have hwf (hs : s.mem.wf = true) : u.mem.wf = true := hu ▸ wf_memWrite_three _ _ _ _ hs
  have hbytes (hs : s.mem.wf = true) (a : Nat) (ha : ∀ k, k < 3 → a ≠ s.indexed k) : u.readByte a = s.readByte a := by
    by_cases h : a < 4096
    · rw [← hu, readByte_memWrite_three _ _ _ _ _ hs h, if_neg (show a ≠ s.i.toNat from ha 0 (by decide)),
        if_neg (show a ≠ s.i.toNat + 1 from ha 1 (by decide)), if_neg (show a ≠ s.i.toNat + 2 from ha 2 (by decide))]
    · rw [readByte_of_le u (by omega), readByte_of_le s (by omega)]
  obtain ⟨m, rfl⟩ := hu ▸ memWrite_three_eq s.i.toNat _ _ _ s
  exact { wf := hwf, bytes := hbytes, conds := rfl }

theorem storeRegs_eq (s : State) (n : Nat) : storeRegs s (List.range n) s = { s with
    mem := (storeRegs s (List.range n) s).mem
    conds := s.conds ++ outOfRange ((List.range n).map s.indexed) } :=
  congrArg (fun u : State => { u with mem := (storeRegs s (List.range n) s).mem }) (storeRegs_rest s s n)

theorem loadRegs_eq (s : State) (n : Nat) : (List.range n).foldl loadReg s = { s with
    v := ((List.range n).foldl loadReg s).v
    conds := s.conds ++ outOfRange ((List.range n).map s.indexed) } :=
  congrArg (fun u : State => { u with v := ((List.range n).foldl loadReg s).v }) (loadRegs_rest s n)

theorem effect_ldMemVx (x : RegIx) (s : State) : ∃ t, exec (.ldMemVx x) s = .next t ∧ Effect (.ldMemVx x) s t := by
  refine ⟨_, exec_ldMemVx s x, ?_⟩
  have hwf (hs : s.mem.wf = true) := wf_storeRegs (s := s) hs (x.val + 1)
  have hbytes (hs : s.mem.wf = true) (a : Nat) (ha : ∀ k, k < x.val + 1 → a ≠ s.indexed k) :
      (storeRegs s (List.range (x.val + 1)) s).readByte a = s.readByte a := by
    rw [storeRegs_readByte hs, if_neg]
    rintro ⟨hle, hlt, -⟩
    exact ha (a - s.i.toNat) (by omega) (Nat.add_sub_of_le hle).symm
  rw [storeRegs_eq] at hwf hbytes ⊢
  exact { wf := hwf, bytes := hbytes, conds := rfl }

theorem effect_ldVxMem (x : RegIx) (s : State) : ∃ t, exec (.ldVxMem x) s = .next t ∧ Effect (.ldVxMem x) s t := by
  refine ⟨_, exec_ldVxMem s x, ?_⟩
  have hregs (r : RegIx) (hr : ¬ r ≤ x) : ((List.range (x.val + 1)).foldl loadReg s).reg r = s.reg r := by
    rw [loadRegs_reg s (by omega), if_neg fun h => hr (Nat.le_of_lt_succ h)]
  rw [loadRegs_eq] at hregs ⊢
  exact { regs := hregs, conds := rfl }

/-- Every instruction answers a next state, and changes only what the rules name. -/
theorem exec_effect (i : Instr) (s : State) : ∃ t, exec i s = .next t ∧ Effect i s t := by
  cases i with
  | sys | jp | jpV0 => exact ⟨_, rfl, {}⟩
  | cls =>
    exact ⟨_, exec_cls s,
      { pixels := fun hn => (hn trivial).elim
        redraw_kept := fun hn => (hn trivial).elim
        redraw_raised := fun _ => rfl }⟩
  | ret => exact effect_ret s
  | call nnn => exact effect_call nnn s
  | seImm | sneImm | seReg | sneReg => exact ⟨_, rfl, effect_skipIf _ {}⟩
  | ldImm | addImm | ldReg | orReg | andReg | xorReg | ldVxDt =>
    exact ⟨_, rfl, { regs := fun r hr => setReg_reg_of_ne _ hr }⟩
  | addReg | subReg | shrReg | subnReg | shlReg =>
    exact ⟨_, rfl, { regs := fun r hr => writeFlagAndResult_reg_of_ne _ _ hr }⟩
  | rnd x nn =>
    exact ⟨_, rfl, { regs := fun r hr => setReg_reg_of_ne _ hr, draws := fun hn => (hn x nn rfl).elim }⟩
  | ldI | ldF => exact ⟨_, rfl, { index := fun hn => (hn trivial).elim }⟩
  | addI x =>
    exact ⟨_, rfl, { regs := fun r hr => setReg_reg_of_ne _ hr, index := fun hn => (hn trivial).elim }⟩
  | drw x y n => exact effect_drw x y n s
  | skp x => exact ⟨_, rfl, effect_skipIf _ (effect_checkKey x (.inl rfl))⟩
  | sknp x => exact ⟨_, rfl, effect_skipIf _ (effect_checkKey x (.inr rfl))⟩
  | ldVxK => exact ⟨_, rfl, { run := fun hn => (hn trivial).elim }⟩
  | ldDtVx x => exact ⟨_, rfl, { delay := fun hn => (hn x rfl).elim }⟩
  | ldStVx x => exact ⟨_, rfl, { sound := fun hn => (hn x rfl).elim }⟩
  | ldB x => exact effect_ldB x s
  | ldMemVx x => exact effect_ldMemVx x s
  | ldVxMem x => exact effect_ldVxMem x s

end Sys2Proof.Machine
end

section
/-! STEP (40_engine_cycle.md R57, R59): the word it fetches, and the four things it can do. -/

namespace Sys2Proof.Machine

/-- The word the fetch at PC reads (R59). -/
abbrev opcodeAt (s : State) : Word := wordOfBytes (s.readByte s.pc.toNat) (s.readByte (s.pc.toNat + 1))

/-- The state a running STEP decodes and executes in: RDRAW cleared, the fetch's conditions listed. -/
def afterFetch (s : State) : State := { s with rdraw := false, conds := outOfRange [s.pc.toNat, s.pc.toNat + 1] }

theorem fetch_beginStep (s : State) : fetch (beginStep s) = (opcodeAt s, afterFetch s) := fetch_eq (beginStep s)

theorem step_of_faulted {s : State} {f : Fault} (h : s.run = .faulted f) : step s = .next (beginStep s) := by
  simp only [step, h, stepFaulted]

theorem step_of_awaitingKey {s : State} {x : RegIx} (h : s.run = .awaitingKey x) :
    step s = .next (pollKey x (beginStep s)) := by
  simp only [step, h]

theorem step_of_instruction {s : State} {i : Instr} (h : s.run = .running) (hd : decode (opcodeAt s) = .instruction i) :
    step s = exec i (afterFetch s) := by
  simp only [step, h, stepRunning, fetch_beginStep, hd]

theorem step_of_unknown {s : State} {w : Word} (h : s.run = .running) (hd : decode (opcodeAt s) = .unknown w) :
    step s = .next (execUnknown w (afterFetch s)) := by
  simp only [step, h, stepRunning, fetch_beginStep, hd]

/-- The word `Unknown` names is the fetched one. -/
theorem unknown_eq_opcodeAt {s : State} {w : Word} (hd : decode (opcodeAt s) = .unknown w) : w = opcodeAt s := by
  have h := decode_readFrom (opcodeAt s)
  rwa [hd] at h

/-- All a STEP can do: report a latched fault, poll for a key, execute an instruction, signal an unknown word. -/
theorem step_cases (s : State) :
    (∃ f, s.run = .faulted f ∧ step s = .next (beginStep s)) ∨
    (∃ x, s.run = .awaitingKey x ∧ step s = .next (pollKey x (beginStep s))) ∨
    (s.run = .running ∧ ∃ i, decode (opcodeAt s) = .instruction i ∧ step s = exec i (afterFetch s)) ∨
    (s.run = .running ∧ decode (opcodeAt s) = .unknown (opcodeAt s) ∧
      step s = .next (execUnknown (opcodeAt s) (afterFetch s))) := by
  cases hr : s.run with
  | faulted f => exact .inl ⟨f, rfl, step_of_faulted hr⟩
  | awaitingKey x => exact .inr (.inl ⟨x, rfl, step_of_awaitingKey hr⟩)
  | running =>
    cases hd : decode (opcodeAt s) with
    | instruction i => exact .inr (.inr (.inl ⟨rfl, i, rfl, step_of_instruction hr hd⟩))
    | unknown w =>
      obtain rfl := unknown_eq_opcodeAt hd
      exact .inr (.inr (.inr ⟨rfl, rfl, step_of_unknown hr hd⟩))

/-- An outcome answers at most one next state. -/
theorem next_unique {σ φ ρ : Type} {o : Host.Outcome σ φ ρ} {t u : σ} (ht : o = .next t) (hu : o = .next u) : t = u :=
  Host.Outcome.next.inj (ht.symm.trans hu)

theorem effect_of_exec {i : Instr} {s t : State} (h : exec i s = .next t) : Effect i s t := by
  obtain ⟨u, hu, he⟩ := exec_effect i s
  rwa [next_unique h hu]

theorem pollKey_of_lowestPressed {x : RegIx} {s : State} {k : Nat} (h : lowestPressed s = some k) :
    pollKey x s = { s.setReg x (BitVec.ofNat 8 k) with run := .running } := by
  rw [pollKey, h]

theorem pollKey_of_none {x : RegIx} {s : State} (h : ∀ k, s.keyPressed k = false) : pollKey x s = s := by
  rw [pollKey, (lowestPressed_none s).2 h]

/-- What a poll can do: take the lowest pressed key, or nothing when no key is pressed. -/
theorem pollKey_cases (x : RegIx) (s : State) :
    ((∀ k, s.keyPressed k = false) ∧ pollKey x s = s) ∨
    ∃ k, lowestPressed s = some k ∧ pollKey x s = { s.setReg x (BitVec.ofNat 8 k) with run := .running } := by
  cases h : lowestPressed s with
  | none =>
    have hnone := (lowestPressed_none s).1 h
    exact .inl ⟨hnone, pollKey_of_none hnone⟩
  | some k => exact .inr ⟨k, rfl, pollKey_of_lowestPressed h⟩

end Sys2Proof.Machine
end

section
/-! The faults of CALL and RET are the only ones an instruction latches, and latching is all they do (60_exceptions.md R107,
R108). -/

namespace Sys2Proof.Machine

theorem writesRun_iff (i : Instr) : writesRun i ↔ (∃ x, i = .ldVxK x) ∨ (∃ nnn, i = .call nnn) ∨ i = .ret := by
  cases i <;> simp [writesRun]

theorem not_writesRun_of_writesScreen {i : Instr} (h : writesScreen i) : ¬ writesRun i := by
  rw [writesRun_iff]
  rintro (⟨x, rfl⟩ | ⟨nnn, rfl⟩ | rfl) <;> exact h

/-- The instruction and the stack bound at which `f` is raised (R107). -/
def Raises (i : Instr) (s : State) (f : Fault) : Prop :=
  (f = .stackOverflow ∧ s.sp.val = 16 ∧ ∃ nnn, i = .call nnn) ∨ (f = .stackUnderflow ∧ s.sp.val = 0 ∧ i = .ret)

theorem Raises.exec_eq {i : Instr} {s : State} {f : Fault} (h : Raises i s f) : exec i s = .next (takeFault f s) := by
  obtain ⟨rfl, hsp, nnn, rfl⟩ | ⟨rfl, hsp, rfl⟩ := h
  · exact exec_call_of_full s nnn hsp
  · exact exec_ret_of_empty s hsp

theorem raises_of_latched {i : Instr} {s t : State} {f : Fault} (h : exec i s = .next t) (hs : s.run ≠ .faulted f)
    (ht : t.run = .faulted f) : Raises i s f := by
  by_cases hw : writesRun i
  · obtain ⟨x, rfl⟩ | ⟨nnn, rfl⟩ | rfl := (writesRun_iff i).1 hw
    · obtain rfl := next_unique (exec_ldVxK s x) h
      cases ht
    · by_cases hsp : s.sp.val < 16
      · obtain rfl := next_unique (exec_call_of_lt s nnn hsp) h
        exact absurd ht hs
      · have hfull : s.sp.val = 16 := by omega
        obtain rfl := next_unique (exec_call_of_full s nnn hfull) h
        cases ht
        exact .inl ⟨rfl, hfull, nnn, rfl⟩
    · by_cases hsp : 0 < s.sp.val
      · obtain rfl := next_unique (exec_ret_of_pos s hsp) h
        exact absurd ht hs
      · have hempty : s.sp.val = 0 := by omega
        obtain rfl := next_unique (exec_ret_of_empty s hempty) h
        cases ht
        exact .inr ⟨rfl, hempty, rfl⟩
  · rw [(effect_of_exec h).run hw] at ht
    exact absurd ht hs

/-- An instruction executed with no fault latched latches `f` exactly when it raises `f`. -/
theorem latches_iff_raises {i : Instr} {s t : State} {f : Fault} (h : exec i s = .next t) (hs : s.run ≠ .faulted f) :
    t.run = .faulted f ↔ Raises i s f := by
  refine ⟨raises_of_latched h hs, fun hr => ?_⟩
  rw [next_unique h hr.exec_eq, takeFault_run]

/-- Settles O30: the latched fault is one `i` raises, and raising it is all `i` does. -/
theorem faultEntryIsPrecise : Obligations.FaultEntryIsPrecise := by
  intro i s t f hs h ht
  exact next_unique h ((latches_iff_raises h (hs f)).1 ht).exec_eq

/-- Settles O29, by what the step does: only an executed instruction can latch a fault that was not latched before. -/
theorem onlyTheCallStackFaults : Obligations.OnlyTheCallStackFaults := by
  intro s t f hs h
  obtain ⟨g, hr, -⟩ | ⟨x, hr, ht⟩ | ⟨hr, i, hd, he⟩ | ⟨hr, hd, he⟩ := step_cases s
  · exact absurd hr (hs g)
  · obtain rfl := next_unique ht h
    refine iff_of_false ?_ fun hf => by cases hr.symm.trans hf.1
    obtain ⟨-, hp⟩ | ⟨k, -, hp⟩ := pollKey_cases x (beginStep s) <;> rw [hp]
    · exact hs f
    · exact nofun
  · rw [latches_iff_raises (s := afterFetch s) (he ▸ h) (hs f), hd]
    simp [Raises, hr, afterFetch]
  · obtain rfl := next_unique he h
    rw [hd]
    exact iff_of_false (hs f) (by simp)

end Sys2Proof.Machine
end

section
/-! Every step keeps the invariant (60_exceptions.md section 2; 10_state.md sections 4 and 5). -/

namespace Sys2Proof.Machine

theorem inv_beginStep {s : State} (h : Inv s) : Inv (beginStep s) := ⟨h.memory, h.fault, nofun⟩

theorem inv_afterFetch {s : State} (h : Inv s) : Inv (afterFetch s) := ⟨h.memory, h.fault, nofun⟩

theorem inv_pollKey {s : State} (x : RegIx) (h : Inv s) : Inv (pollKey x s) := by
  obtain ⟨-, hp⟩ | ⟨k, -, hp⟩ := pollKey_cases x s <;> rw [hp]
  · exact h
  · exact ⟨h.memory, ⟨nofun, nofun⟩, fun _ => rfl⟩

/-- The stack pointer at which each fault is raised is the one it leaves behind. -/
theorem Raises.faultMatchesStack {i : Instr} {s : State} {f : Fault} (h : Raises i s f) :
    FaultMatchesStack (takeFault f s) := by
  obtain ⟨rfl, hsp, -⟩ | ⟨rfl, hsp, -⟩ := h
  · exact ⟨fun _ => hsp, nofun⟩
  · exact ⟨nofun, fun _ => hsp⟩

theorem faultMatchesStack_of_safe {s : State} (h : SafeState s) : FaultMatchesStack s :=
  ⟨fun hf => absurd hf (h _), fun hf => absurd hf (h _)⟩

theorem inv_exec {i : Instr} {s t : State} (hs : Inv s) (hr : s.run = .running) (hd : s.rdraw = false)
    (h : exec i s = .next t) : Inv t where
  memory := (effect_of_exec h).wf hs.memory
  fault := by
    by_cases hf : SafeState t
    · exact faultMatchesStack_of_safe hf
    · obtain ⟨f, hf⟩ : ∃ f, t.run = .faulted f := by simpa [SafeState] using hf
      have hraise := raises_of_latched h (by simp [hr]) hf
      rw [next_unique h hraise.exec_eq]
      exact hraise.faultMatchesStack
  redraw ht := by
    have he := effect_of_exec h
    by_cases hw : writesScreen i
    · rw [he.run (not_writesRun_of_writesScreen hw), hr]
    · rw [he.redraw_kept hw, hd] at ht
      cases ht

theorem inv_step {s t : State} (hs : Inv s) (h : step s = .next t) : Inv t := by
  obtain ⟨f, -, ht⟩ | ⟨x, -, ht⟩ | ⟨hr, i, -, he⟩ | ⟨-, -, ht⟩ := step_cases s
  · obtain rfl := next_unique ht h
    exact inv_beginStep hs
  · obtain rfl := next_unique ht h
    exact inv_pollKey x (inv_beginStep hs)
  · exact inv_exec (inv_afterFetch hs) hr rfl (he ▸ h)
  · obtain rfl := next_unique ht h
    exact ⟨hs.memory, hs.fault, nofun⟩

/-- Settles O55, by the four things a step can do. -/
theorem stepKeepsTheInvariant : Obligations.StepKeepsTheInvariant := fun _ _ => inv_step

end Sys2Proof.Machine
end

section
/-! Schedules of the host's operations (70_reset_and_hazards.md R128, D36): each operation runs to its end, and what every
operation keeps every schedule keeps. -/

namespace Sys2Proof.Machine

/-! ## One operation -/

theorem step_total (s : State) : ∃ t, step s = .next t := by
  obtain ⟨f, -, h⟩ | ⟨x, -, h⟩ | ⟨-, i, -, h⟩ | ⟨-, -, h⟩ := step_cases s
  · exact ⟨_, h⟩
  · exact ⟨_, h⟩
  · obtain ⟨t, ht, -⟩ := exec_effect i (afterFetch s)
    exact ⟨t, h.trans ht⟩
  · exact ⟨_, h⟩

/-- Settles O10, by the four things a step can do: each answers a next state. -/
theorem stepAlwaysAnswersANextState : Obligations.StepAlwaysAnswersANextState := step_total

theorem perform_step {s t : State} (h : step s = .next t) : perform .step s = .next (t, .stepped t.stepResult) := by
  simp only [perform, h]

theorem perform_tick (s : State) : perform .tick s = .next (tick s, .done []) := rfl

theorem perform_reset (s : State) : perform .reset s = .next ({ State.reset with draws := s.draws }, .done []) := rfl

theorem perform_peek (p : Peek) (s : State) : perform (.peek p) s = .next (s, .peeked (peek p s).1 (peek p s).2) := rfl

theorem perform_setKey_of_lt (s : State) {k : Nat} (b : Bool) (h : k < 16) :
    perform (.setKey k b) s = .next ({ s with key := s.key.set k b h }, .done []) := by
  simp only [perform, setKey, dif_pos h]

theorem perform_setKey_of_le (s : State) {k : Nat} (b : Bool) (h : 16 ≤ k) :
    perform (.setKey k b) s = .next (s, .done [.outOfRangeAccess (.key k)]) := by
  simp only [perform, setKey, dif_neg (Nat.not_lt.2 h)]

theorem load_of_le (s : State) {bytes : List Byte} (h : bytes.length ≤ 3584) :
    load bytes s = ({ s with mem := s.mem.writeBytes 0x200 bytes }, ⟨none, []⟩) := if_neg (Nat.not_lt.2 h)

theorem load_of_lt (s : State) {bytes : List Byte} (h : 3584 < bytes.length) :
    load bytes s = (s, ⟨some .programTooLarge, []⟩) := if_pos h

theorem perform_load_of_le (s : State) {bytes : List Byte} (h : bytes.length ≤ 3584) :
    perform (.load bytes) s = .next ({ s with mem := s.mem.writeBytes 0x200 bytes }, .loaded ⟨none, []⟩) := by
  simp only [perform, load_of_le s h]

theorem perform_load_of_lt (s : State) {bytes : List Byte} (h : 3584 < bytes.length) :
    perform (.load bytes) s = .next (s, .loaded ⟨some .programTooLarge, []⟩) := by
  simp only [perform, load_of_lt s h]

/-- What an operation of the host other than STEP and RESET may write: the keys, memory, the timers. -/
theorem perform_frame {o : Operation} {s t : State} {r : Response} (hstep : o ≠ .step) (hreset : o ≠ .reset)
    (h : perform o s = .next (t, r)) :
    (∃ m dt st key, t = { s with mem := m, dt := dt, st := st, key := key }) ∧ ∀ q, r ≠ .stepped q := by
  cases o with
  | step => exact absurd rfl hstep
  | reset => exact absurd rfl hreset
  | tick =>
    cases next_unique (perform_tick s) h
    exact ⟨⟨_, _, _, _, rfl⟩, nofun⟩
  | peek p =>
    cases next_unique (perform_peek p s) h
    exact ⟨⟨_, _, _, _, rfl⟩, nofun⟩
  | setKey k b =>
    by_cases hk : k < 16
    · cases next_unique (perform_setKey_of_lt s b hk) h
      exact ⟨⟨_, _, _, _, rfl⟩, nofun⟩
    · cases next_unique (perform_setKey_of_le s b (Nat.le_of_not_lt hk)) h
      exact ⟨⟨_, _, _, _, rfl⟩, nofun⟩
  | load bytes =>
    by_cases hb : bytes.length ≤ 3584
    · cases next_unique (perform_load_of_le s hb) h
      exact ⟨⟨_, _, _, _, rfl⟩, nofun⟩
    · cases next_unique (perform_load_of_lt s (Nat.lt_of_not_le hb)) h
      exact ⟨⟨_, _, _, _, rfl⟩, nofun⟩

/-- Settles O52: the other operations write keys, memory and timers at most. -/
theorem onlyStepAndResetWriteRun : Obligations.OnlyStepAndResetWriteRun := by
  intro o s t r hstep hreset h
  obtain ⟨⟨m, dt, st, key, rfl⟩, -⟩ := perform_frame hstep hreset h
  rfl

theorem inv_reset (draws : Nat) : Inv { State.reset with draws := draws } := ⟨rfl, ⟨nofun, nofun⟩, nofun⟩

/-- Settles O54. -/
theorem resetMeetsTheInvariant : Obligations.ResetMeetsTheInvariant := inv_reset 0

/-- Every operation of the host runs to its end and keeps the invariant. -/
theorem inv_perform (o : Operation) {s : State} (hs : Inv s) : ∃ t r, perform o s = .next (t, r) ∧ Inv t := by
  cases o with
  | step =>
    obtain ⟨t, ht⟩ := step_total s
    exact ⟨t, _, perform_step ht, inv_step hs ht⟩
  | tick => exact ⟨_, _, perform_tick s, hs.memory, hs.fault, hs.redraw⟩
  | setKey k b =>
    by_cases h : k < 16
    · exact ⟨_, _, perform_setKey_of_lt s b h, hs.memory, hs.fault, hs.redraw⟩
    · exact ⟨_, _, perform_setKey_of_le s b (Nat.le_of_not_lt h), hs⟩
  | load bytes =>
    by_cases h : bytes.length ≤ 3584
    · exact ⟨_, _, perform_load_of_le s h, wf_writeBytes bytes (by omega) hs.memory, hs.fault, hs.redraw⟩
    · exact ⟨_, _, perform_load_of_lt s (by omega), hs⟩
  | reset => exact ⟨_, _, perform_reset s, inv_reset s.draws⟩
  | peek p => exact ⟨_, _, perform_peek p s, hs⟩

/-! ## Schedules -/

theorem runOperations_cons {o : Operation} {ops : List Operation} {s t u : State} {r : Response} {rs : List Response}
    (h : perform o s = .next (t, r)) (hrest : runOperations ops t = .next (u, rs)) :
    runOperations (o :: ops) s = .next (u, r :: rs) := by
  simp only [runOperations, h, hrest]

/-- A schedule that ran to its end ran its first operation, then the others. -/
theorem runOperations_cons_inv {o : Operation} {ops : List Operation} {s u : State} {rs : List Response}
    (h : runOperations (o :: ops) s = .next (u, rs)) :
    ∃ t r rs', perform o s = .next (t, r) ∧ runOperations ops t = .next (u, rs') ∧ rs = r :: rs' := by
  unfold runOperations at h
  split at h
  · next t r hp =>
    split at h
    · next u' rs' hr =>
      cases h
      exact ⟨t, r, rs', hp, hr, rfl⟩
    · cases h
    · cases h
  · cases h
  · cases h

/-- Settles O56, by induction on the schedule. -/
theorem everyScheduleKeepsTheInvariant : Obligations.EveryScheduleKeepsTheInvariant := by
  intro ops
  induction ops with
  | nil => exact fun s hs => ⟨s, [], rfl, hs, rfl⟩
  | cons o ops ih =>
    intro s hs
    obtain ⟨t, r, hp, ht⟩ := inv_perform o hs
    obtain ⟨u, rs, hrest, hu, hlen⟩ := ih t ht
    exact ⟨u, r :: rs, runOperations_cons hp hrest, hu, congrArg (· + 1) hlen⟩

/-! ## A latched fault -/

/-- From `s`, where `f` is latched, to `t` the fault stays and nothing a program could see changes but memory, keys, timers. -/
structure FrozenBy (f : Fault) (s t : State) : Prop where
  run : t.run = .faulted f
  pc : t.pc = s.pc
  v : t.v = s.v
  i : t.i = s.i
  sp : t.sp = s.sp
  stk : t.stk = s.stk
  fb : t.fb = s.fb

theorem FrozenBy.trans {f : Fault} {s t u : State} (h₁ : FrozenBy f s t) (h₂ : FrozenBy f t u) : FrozenBy f s u where
  run := h₂.run
  pc := h₂.pc.trans h₁.pc
  v := h₂.v.trans h₁.v
  i := h₂.i.trans h₁.i
  sp := h₂.sp.trans h₁.sp
  stk := h₂.stk.trans h₁.stk
  fb := h₂.fb.trans h₁.fb

theorem stepResult_of_faulted {s : State} {f : Fault} (h : s.run = .faulted f) :
    (beginStep s).stepResult = ⟨some f, false, []⟩ := by
  simp [State.stepResult, State.faultOf, h]

theorem frozenBy_perform {o : Operation} {s t : State} {r : Response} {f : Fault} (ho : o ≠ .reset)
    (hf : s.run = .faulted f) (h : perform o s = .next (t, r)) :
    FrozenBy f s t ∧ ∀ q, r = .stepped q → q = ⟨some f, false, []⟩ := by
  by_cases hstep : o = .step
  · subst hstep
    cases next_unique (perform_step (step_of_faulted hf)) h
    refine ⟨⟨hf, rfl, rfl, rfl, rfl, rfl, rfl⟩, fun q hq => ?_⟩
    cases hq
    exact stepResult_of_faulted hf
  · obtain ⟨⟨m, dt, st, key, rfl⟩, hr⟩ := perform_frame hstep ho h
    exact ⟨⟨hf, rfl, rfl, rfl, rfl, rfl, rfl⟩, fun q hq => absurd hq (hr q)⟩

theorem frozenBy_runOperations {f : Fault} {t : State} (ops : List Operation) : ∀ {s : State} {rs : List Response},
    .reset ∉ ops → s.run = .faulted f → runOperations ops s = .next (t, rs) →
    FrozenBy f s t ∧ ∀ r ∈ rs, ∀ q, r = .stepped q → q = ⟨some f, false, []⟩ := by
  induction ops with
  | nil =>
    intro s rs _ hf h
    cases h
    exact ⟨⟨hf, rfl, rfl, rfl, rfl, rfl, rfl⟩, nofun⟩
  | cons o ops ih =>
    intro s rs hops hf h
    obtain ⟨ho, hops⟩ := not_or.1 (mt List.mem_cons.2 hops)
    obtain ⟨u, r, rs, hp, hrest, rfl⟩ := runOperations_cons_inv h
    obtain ⟨hfirst, hr⟩ := frozenBy_perform (Ne.symm ho) hf hp
    obtain ⟨hlast, hrs⟩ := ih hops hfirst.run hrest
    exact ⟨hfirst.trans hlast, List.forall_mem_cons.2 ⟨hr, hrs⟩⟩

/-- Settles O53, by induction on the schedule. -/
theorem faultStaysLatchedUntilReset : Obligations.FaultStaysLatchedUntilReset := by
  intro ops s t rs f hops hf h
  obtain ⟨⟨hrun, hpc, hv, hi, hsp, hstk, hfb⟩, hrs⟩ := frozenBy_runOperations ops hops hf h
  exact ⟨hrun, hpc, hv, hi, hsp, hstk, hfb, hrs⟩

end Sys2Proof.Machine
end

section
/-! Hidden state never reaches the program: each shared operation, and then each instruction, takes two states that agree for a
program to two that agree (10_state.md sections 4 and 5). -/

namespace Sys2Proof.Machine

/-- `s` with another ST, RDRAW, condition list and call stack. -/
def withHidden (s : State) (st : Byte) (rdraw : Bool) (conds : List Condition) (stk : Vector Word 16) : State :=
  { s with st := st, rdraw := rdraw, conds := conds, stk := stk }

theorem sameForProgram_withHidden (s : State) (st : Byte) (rdraw : Bool) (conds : List Condition) {stk : Vector Word 16}
    (h : ∀ j : Fin 16, j.val < s.sp.val → stk[j] = s.stk[j]) : SameForProgram s (withHidden s st rdraw conds stk) :=
  ⟨rfl, rfl, rfl, rfl, rfl, h, rfl, rfl, rfl, rfl, rfl⟩

/-- Two states that agree for a program differ in hidden state only. -/
theorem SameForProgram.exists_withHidden {s s' : State} (h : SameForProgram s s') :
    ∃ st rdraw conds stk, s' = withHidden s st rdraw conds stk ∧ ∀ j : Fin 16, j.val < s.sp.val → stk[j] = s.stk[j] := by
  refine ⟨s'.st, s'.rdraw, s'.conds, s'.stk, ?_, h.slots⟩
  obtain ⟨mem, v, i, pc, sp, -, fb, dt, key, run, draws⟩ := h
  cases s
  cases s'
  simp_all [withHidden]

section
variable {s s' : State} (h : SameForProgram s s')
include h

theorem SameForProgram.opcodeAt_eq : opcodeAt s' = opcodeAt s := by simp only [opcodeAt, State.readByte, h.mem, h.pc]

theorem SameForProgram.advance : SameForProgram (advance s) (advance s') := by
  obtain ⟨st, rdraw, conds, stk, rfl, hstk⟩ := h.exists_withHidden
  exact sameForProgram_withHidden _ st rdraw conds hstk

theorem SameForProgram.setI (w : Word) : SameForProgram (s.setI w) (s'.setI w) := by
  obtain ⟨st, rdraw, conds, stk, rfl, hstk⟩ := h.exists_withHidden
  exact sameForProgram_withHidden (s.setI w) st rdraw conds hstk

theorem SameForProgram.setReg (x : RegIx) (b : Byte) : SameForProgram (s.setReg x b) (s'.setReg x b) := by
  obtain ⟨st, rdraw, conds, stk, rfl, hstk⟩ := h.exists_withHidden
  exact sameForProgram_withHidden (s.setReg x b) st rdraw conds hstk

/-- The condition list is hidden. -/
theorem SameForProgram.with_conds (conds conds' : List Condition) :
    SameForProgram { s with conds := conds } { s' with conds := conds' } := by
  obtain ⟨st, rdraw, -, stk, rfl, hstk⟩ := h.exists_withHidden
  exact sameForProgram_withHidden { s with conds := conds } st rdraw conds' hstk

/-- RDRAW is hidden. -/
theorem SameForProgram.with_rdraw (rdraw rdraw' : Bool) :
    SameForProgram { s with rdraw := rdraw } { s' with rdraw := rdraw' } := by
  obtain ⟨st, -, conds, stk, rfl, hstk⟩ := h.exists_withHidden
  exact sameForProgram_withHidden { s with rdraw := rdraw } st rdraw' conds hstk

theorem SameForProgram.skipIf (c : Bool) : SameForProgram (skipIf c s) (skipIf c s') := by
  cases c
  · exact h.advance
  · exact h.advance.advance

theorem SameForProgram.memWrite (a : Nat) (b : Byte) : SameForProgram (memWrite a b s) (memWrite a b s') := by
  rw [memWrite_eq, memWrite_eq]
  obtain ⟨st, rdraw, conds, stk, rfl, hstk⟩ := h.exists_withHidden
  exact sameForProgram_withHidden { s with mem := if a < 4096 then s.mem.write a b else s.mem, conds := _ } st rdraw _ hstk

theorem SameForProgram.storeRegs (u : State) (ks : List Nat) : SameForProgram (storeRegs u ks s) (storeRegs u ks s') :=
  List.foldl_rel h fun _ _ _ _ hr => hr.memWrite _ _

theorem SameForProgram.loadReg (k : Nat) : SameForProgram (loadReg s k) (loadReg s' k) := by
  rw [loadReg_eq, loadReg_eq]
  obtain ⟨st, rdraw, conds, stk, rfl, hstk⟩ := h.exists_withHidden
  exact (h.setReg _ _).with_conds _ _

theorem SameForProgram.loadRegs (n : Nat) :
    SameForProgram ((List.range n).foldl Machine.loadReg s) ((List.range n).foldl Machine.loadReg s') :=
  List.foldl_rel h fun _ _ _ _ hr => hr.loadReg _

theorem SameForProgram.setPixel (px : Fin 64) (py : Fin 32) (b : Bool) :
    SameForProgram (s.setPixel px py b) (s'.setPixel px py b) := by
  obtain ⟨st, rdraw, conds, stk, rfl, hstk⟩ := h.exists_withHidden
  exact sameForProgram_withHidden (s.setPixel px py b) st rdraw conds hstk

theorem SameForProgram.togglePixel (px : Fin 64) (py : Fin 32) :
    SameForProgram (togglePixel px py s) (togglePixel px py s') := by
  rw [Machine.togglePixel, Machine.togglePixel, show s'.pixel px py = s.pixel px py from congrArg (·[px][py]) h.fb]
  split
  · exact (h.setReg vf 1).setPixel px py false
  · exact h.setPixel px py true

theorem SameForProgram.drawBit (xs ys r : Nat) (row : Byte) (c : Nat) :
    SameForProgram (drawBit xs ys r row s c) (drawBit xs ys r row s' c) := by
  unfold Machine.drawBit
  split
  · exact h.togglePixel _ _
  · exact h

theorem SameForProgram.drawRow (xs ys r : Nat) : SameForProgram (drawRow xs ys s r) (drawRow xs ys s' r) := by
  rw [drawRow_eq, drawRow_eq, show s'.readByte (s'.i.toNat + r) = s.readByte (s.i.toNat + r) by
    simp only [State.readByte, h.mem, h.i]]
  exact List.foldl_rel (h.with_conds _ _) fun _ _ _ _ hr => hr.drawBit ..

end

theorem exec_call_sameForProgram {s s' : State} (h : SameForProgram s s') (nnn : Addr) :
    ∃ t t', exec (.call nnn) s = .next t ∧ exec (.call nnn) s' = .next t' ∧ SameForProgram t t' := by
  obtain ⟨st, rdraw, conds, stk, rfl, hstk⟩ := h.exists_withHidden
  by_cases hsp : s.sp.val < 16
  · refine ⟨_, _, exec_call_of_lt s nnn hsp, exec_call_of_lt (withHidden s st rdraw conds stk) nnn hsp, ?_⟩
    refine sameForProgram_withHidden (jumpTo (zext16 nnn) (push s.pc s hsp)) st rdraw conds
      (stk := stk.set s.sp.val s.pc hsp) fun j hj => ?_
    by_cases hje : s.sp.val = j.val
    · simp [hje]
    · simpa [Vector.getElem_set, hje] using hstk j (by simp at hj; omega)
  · have hfull : s.sp.val = 16 := by omega
    exact ⟨_, _, exec_call_of_full s nnn hfull, exec_call_of_full _ nnn hfull,
      sameForProgram_withHidden _ st rdraw conds hstk⟩

theorem exec_ret_sameForProgram {s s' : State} (h : SameForProgram s s') :
    ∃ t t', exec .ret s = .next t ∧ exec .ret s' = .next t' ∧ SameForProgram t t' := by
  obtain ⟨st, rdraw, conds, stk, rfl, hstk⟩ := h.exists_withHidden
  by_cases hsp : 0 < s.sp.val
  · refine ⟨_, _, exec_ret_of_pos s hsp, exec_ret_of_pos (withHidden s st rdraw conds stk) hsp, ?_⟩
    have htop : topOfStack (withHidden s st rdraw conds stk) hsp = topOfStack s hsp :=
      hstk ⟨s.sp.val - 1, by omega⟩ (Nat.sub_lt hsp Nat.one_pos)
    rw [htop]
    exact sameForProgram_withHidden (jumpTo (topOfStack s hsp + 2) (pop s)) st rdraw conds
      fun j hj => hstk j (Nat.lt_of_lt_of_le hj (Nat.sub_le ..))
  · have hempty : s.sp.val = 0 := by omega
    exact ⟨_, _, exec_ret_of_empty s hempty, exec_ret_of_empty _ hempty,
      sameForProgram_withHidden _ st rdraw conds hstk⟩

/-- No instruction lets hidden state through: a loop by the congruence of its body, every other by one equation. -/
theorem exec_sameForProgram (i : Instr) {s s' : State} (h : SameForProgram s s') :
    ∃ t t', exec i s = .next t ∧ exec i s' = .next t' ∧ SameForProgram t t' := by
  obtain ⟨st, rdraw, conds, stk, rfl, hstk⟩ := h.exists_withHidden
  cases i with
  | ret => exact exec_ret_sameForProgram h
  | call nnn => exact exec_call_sameForProgram h nnn
  | cls =>
    exact ⟨_, _, exec_cls s, exec_cls _,
      sameForProgram_withHidden (advance (raiseRedraw { s with fb := Framebuffer.clear })) st true conds hstk⟩
  | sys | jp | jpV0 | ldImm | addImm | ldReg | orReg | andReg | xorReg | addReg | subReg | shrReg | subnReg | shlReg
    | rnd | ldI | addI | ldF | ldVxK | ldVxDt | ldDtVx =>
    exact ⟨_, _, rfl, rfl, sameForProgram_withHidden _ st rdraw conds hstk⟩
  | seImm | sneImm | seReg | sneReg =>
    exact ⟨_, _, rfl, rfl, h.skipIf _⟩
  | drw x y n =>
    refine ⟨_, _, rfl, rfl, (SameForProgram.with_rdraw ?_ true true).advance⟩
    exact List.foldl_rel (h.setReg _ _) fun _ _ _ _ hr => hr.drawRow _ _ _
  | skp | sknp =>
    refine ⟨_, _, rfl, rfl, SameForProgram.skipIf ?_ _⟩
    rw [checkKey_eq, checkKey_eq]
    exact h.with_conds _ _
  | ldStVx x =>
    exact ⟨_, _, rfl, rfl, sameForProgram_withHidden (advance { s with st := s.reg x }) (s.reg x) rdraw conds hstk⟩
  | ldB =>
    exact ⟨_, _, rfl, rfl, (((h.memWrite _ _).memWrite _ _).memWrite _ _).advance⟩
  | ldMemVx x =>
    exact ⟨_, _, exec_ldMemVx s x, exec_ldMemVx _ x, ((h.storeRegs s _).setI _).advance⟩
  | ldVxMem =>
    exact ⟨_, _, rfl, rfl, ((h.loadRegs _).setI _).advance⟩

theorem SameForProgram.pollKey {s s' : State} (h : SameForProgram s s') (x : RegIx) :
    SameForProgram (pollKey x s) (pollKey x s') := by
  obtain ⟨st, rdraw, conds, stk, rfl, hstk⟩ := h.exists_withHidden
  have hkey : lowestPressed (withHidden s st rdraw conds stk) = lowestPressed s := rfl
  unfold Machine.pollKey
  rw [hkey]
  cases lowestPressed s with
  | none => exact h
  | some k => exact sameForProgram_withHidden { s.setReg x (BitVec.ofNat 8 k) with run := .running } st rdraw conds hstk

theorem step_sameForProgram {s s' : State} (h : SameForProgram s s') :
    ∃ t t', step s = .next t ∧ step s' = .next t' ∧ SameForProgram t t' := by
  have hbegin : SameForProgram (beginStep s) (beginStep s') := (h.with_rdraw false false).with_conds [] []
  have hfetch : SameForProgram (afterFetch s) (afterFetch s') := (h.with_rdraw false false).with_conds _ _
  obtain ⟨f, hr, ht⟩ | ⟨x, hr, ht⟩ | ⟨hr, i, hd, he⟩ | ⟨hr, hd, ht⟩ := step_cases s
  · exact ⟨_, _, ht, step_of_faulted (h.run.trans hr), hbegin⟩
  · exact ⟨_, _, ht, step_of_awaitingKey (h.run.trans hr), hbegin.pollKey x⟩
  · obtain ⟨t, t', ht, ht', hsame⟩ := exec_sameForProgram i hfetch
    rw [← h.opcodeAt_eq] at hd
    exact ⟨t, t', he.trans ht, (step_of_instruction (h.run.trans hr) hd).trans ht', hsame⟩
  · rw [← h.opcodeAt_eq] at hd
    exact ⟨_, _, ht, step_of_unknown (h.run.trans hr) hd, (hfetch.with_conds _ _).advance⟩

/-- Settles O57: the same case of the step applies to both states, whose fetched words agree. -/
theorem hiddenStateNeverReachesTheProgram : Obligations.HiddenStateNeverReachesTheProgram := by
  intro s s' t t' h ht ht'
  obtain ⟨u, u', hu, hu', hsame⟩ := step_sameForProgram h
  rwa [next_unique ht hu, next_unique ht' hu']

end Sys2Proof.Machine
end

section
/-! The fetch and STEP (40_engine_cycle.md), with the AwaitingKey poll (45_input.md R101) and the end of a run
(70_reset_and_hazards.md R130). -/

namespace Sys2Proof.Machine

/-- Settles O8, by the value and the state the fetch gives. -/
theorem fetchReadsTwoBytesHighFirst : Obligations.FetchReadsTwoBytesHighFirst := by
  intro s
  rw [fetch_eq]
  exact ⟨wordOfBytes_toNat _ _, rfl⟩

/-- Settles O9: the state after the fetch is the one the statement names. -/
theorem stepRunsTheDecodedInstruction : Obligations.StepRunsTheDecodedInstruction :=
  fun _ _ hr hd => step_of_instruction hr hd

/-- Settles O11. -/
theorem unknownWordIsASignalledNoOp : Obligations.UnknownWordIsASignalledNoOp := by
  rintro s _ hr rfl hd
  exact step_of_unknown hr hd

/-- Settles O12. -/
theorem faultedStepReportsTheFaultAgain : Obligations.FaultedStepReportsTheFaultAgain :=
  fun s _ hf => ⟨beginStep s, step_of_faulted hf, rfl, stepResult_of_faulted hf⟩

/-- Settles O13, by the two answers of the key search. -/
theorem pollTakesTheLowestPressedKey : Obligations.PollTakesTheLowestPressedKey := by
  intro s x hr
  refine ⟨fun hnone => ?_, fun k hk hleast => ?_⟩
  · rw [step_of_awaitingKey hr, pollKey_of_none (s := beginStep s) hnone]
    rfl
  · have hfound : lowestPressed (beginStep s) = some k := (lowestPressed_some _ k).2 ⟨hk, hleast⟩
    have hlt : k < 16 := by
      by_contra hle
      rw [keyPressed_of_le s (Nat.le_of_not_lt hle)] at hk
      cases hk
    refine ⟨_, (step_of_awaitingKey hr).trans (congrArg _ (pollKey_of_lowestPressed hfound)), ?_, fun r hne => ?_, rfl⟩
    · show (((beginStep s).setReg x (BitVec.ofNat 8 k)).reg x).toNat = k
      rw [setReg_reg_self, BitVec.toNat_ofNat]
      omega
    · exact setReg_reg_of_ne (s := beginStep s) _ hne

/-- Settles O14, by the instruction's effect on RDRAW, which the start of the step cleared. -/
theorem redrawIsRaisedByClsAndDrwOnly : Obligations.RedrawIsRaisedByClsAndDrwOnly := by
  intro s t hr h
  cases hd : decode (opcodeAt s) with
  | instruction i =>
    have he := effect_of_exec ((step_of_instruction hr hd).symm.trans h)
    simp only [Decoded.instruction.injEq, exists_eq_left']
    refine ⟨fun ht => ?_, he.redraw_raised⟩
    by_contra hw
    rw [he.redraw_kept hw] at ht
    cases ht
  | unknown w =>
    obtain rfl := next_unique (step_of_unknown hr hd) h
    exact iff_of_false nofun nofun

theorem accessConditions_afterFetch (s : State) (i : Instr) : accessConditions (afterFetch s) i = accessConditions s i := by
  cases i <;> rfl

/-- Settles O15: the fetch's conditions, then those of the unknown word or of the instruction's effect. -/
theorem conditionsOfAStep : Obligations.ConditionsOfAStep := by
  intro s t hr h
  cases hd : decode (opcodeAt s) with
  | instruction i =>
    have he := effect_of_exec ((step_of_instruction hr hd).symm.trans h)
    rw [he.conds, accessConditions_afterFetch]
    rfl
  | unknown w =>
    obtain rfl := next_unique (step_of_unknown hr hd) h
    rw [unknown_eq_opcodeAt hd]
    rfl

/-! ## A placed word -/

theorem withFetchWord_pc_lt (s : State) (nbits w : Nat) : (s.withFetchWord nbits w).pc.toNat + 1 < 4096 := by
  show (if s.pc.toNat + 1 < 4096 then s.pc else 0x200#16).toNat + 1 < 4096
  split
  · next h => exact h
  · decide

theorem withFetchWord_mem (s : State) (w : Word) : (s.withFetchWord 16 w.toNat).mem =
    s.mem.writeBytes (s.withFetchWord 16 w.toNat).pc.toNat [highByte w, lowByte w] := by
  have hw : BitVec.ofNat 16 (w.toNat % 2 ^ 16) = w := by
    rw [Nat.mod_eq_of_lt w.isLt, BitVec.ofNat_toNat, BitVec.setWidth_eq]
  simp only [State.withFetchWord, hw]

theorem opcodeAt_withFetchWord {s : State} (hs : s.mem.wf = true) (w : Word) :
    opcodeAt (s.withFetchWord 16 w.toNat) = w := by
  have hpc := withFetchWord_pc_lt s 16 w.toNat
  have hmem := withFetchWord_mem s w
  rw [opcodeAt, readByte_of_lt _ (Nat.lt_of_succ_lt hpc), readByte_of_lt _ hpc, hmem]
  generalize (s.withFetchWord 16 w.toNat).pc.toNat = p at hpc
  have hread (a : Nat) := read_writeBytes [highByte w, lowByte w] (a := p) a hpc hs
  rw [hread, hread]
  simpa using wordOfBytes_bytes w

/-- Inside memory the fetch lists nothing. -/
theorem outOfRange_pair {a : Nat} (h : a + 1 < 4096) : outOfRange [a, a + 1] = [] := by
  rw [outOfRange_cons_cons, outOfRange_of_lt (Nat.lt_of_succ_lt h), outOfRange_of_lt h, List.append_nil]

/-- Settles O16: the fetch reads the placed word back, both its bytes in memory, and so lists nothing. -/
theorem placedWordRunsNext : Obligations.PlacedWordRunsNext := by
  intro s w i hs hd
  have hpc := withFetchWord_pc_lt s 16 w.toNat
  have hop : decode (opcodeAt (s.withFetchWord 16 w.toNat)) = .instruction i := by rw [opcodeAt_withFetchWord hs, hd]
  rw [step_of_instruction rfl hop, afterFetch, outOfRange_pair hpc]

/-! ## The end of a run -/

theorem zext16_toNat (nnn : Addr) : (zext16 nnn).toNat = nnn.toNat := by
  have := nnn.isLt
  rw [zext16, BitVec.toNat_setWidth]
  omega

/-- Settles O58: the word at PC is a jump to PC itself. -/
theorem endedRunIsAFixedPoint : Obligations.EndedRunIsAFixedPoint := by
  rintro a s ⟨hrun, hpc, hin, hword⟩
  have hat : s.pc.toNat = a.toNat := by rw [hpc, zext16_toNat]
  have hd : decode (opcodeAt s) = .instruction (.jp a) := by
    rw [opcodeAt, hat, hword]
    exact decodeOfEncodeIsTheInstruction (.jp a) rfl
  have hstep : step s = .next { s with rdraw := false, conds := [] } := by
    rw [step_of_instruction hrun hd, exec_jp, ← hpc, afterFetch, outOfRange_pair (by omega)]
    rfl
  refine ⟨_, hstep, rfl, ?_, hrun, hpc, hin, hword⟩
  simp only [State.stepResult, State.faultOf, hrun]

end Sys2Proof.Machine
end

section
/-! The frames of all instructions, read off their effects, and the classes of PC (40_engine_cycle.md R61). -/

namespace Sys2Proof.Machine

/-- Settles O45, by the effect of the instruction, the accessors following their fields. -/
theorem instructionsWriteOnlyWhatTheRulesName : Obligations.InstructionsWriteOnlyWhatTheRulesName := by
  intro i s t h
  have he := effect_of_exec h
  have pixels (hw : ¬ writesScreen i) (px py) : t.pixel px py = s.pixel px py := by
    rw [State.pixel, he.pixels hw]
    rfl
  have keys (k) : t.keyPressed k = s.keyPressed k := by rw [State.keyPressed, he.keys]; rfl
  exact ⟨he.regs, he.index, he.sp, he.slots, fun hw => ⟨pixels hw, he.redraw_kept hw⟩, he.delay, he.sound, he.run,
    keys, he.draws⟩

/-- Settles O46, by the effect of the instruction on the bytes of memory. -/
theorem instructionsStoreOnlyFromI : Obligations.InstructionsStoreOnlyFromI :=
  fun _ _ _ hs h => (effect_of_exec h).bytes hs

theorem offset_toNat (nnn : Addr) (b : Byte) : (zext16 nnn + b.setWidth 16).toNat = nnn.toNat + b.toNat := by
  have := nnn.isLt
  have := b.isLt
  rw [BitVec.toNat_add, zext16_toNat, BitVec.toNat_setWidth]
  omega

theorem skipIf_pc (c : Bool) (s : State) : (skipIf c s).pc = s.pc + 2 ∨ (skipIf c s).pc = s.pc + 4 := by
  rw [skipIf_eq]
  cases c
  · exact .inl rfl
  · exact .inr rfl

/-- A key skip moves PC, lists the key number if there is no such key, and does nothing else. -/
theorem skipIf_checkKey_eq (c : Bool) (k : Nat) (s : State) : skipIf c (checkKey k s) = { s with
    pc := if c then s.pc + 4 else s.pc + 2
    conds := s.conds ++ if k < 16 then [] else [.outOfRangeAccess (.key k)] } := by
  rw [skipIf_eq, checkKey_eq]

theorem skipIf_checkKey_pc (c : Bool) (k : Nat) (s : State) :
    (skipIf c (checkKey k s)).pc = s.pc + 2 ∨ (skipIf c (checkKey k s)).pc = s.pc + 4 := by
  rw [skipIf_checkKey_eq]
  cases c
  · exact .inl rfl
  · exact .inr rfl

@[simp] theorem memWrite_pc (a : Nat) (b : Byte) (s : State) : (memWrite a b s).pc = s.pc := by rw [memWrite_eq]

theorem exec_call_pc {s t : State} {nnn : Addr} (h : exec (.call nnn) s = .next t) :
    if s.sp.val = 16 then t.pc = s.pc else t.pc.toNat = nnn.toNat := by
  split
  · next hsp =>
    obtain rfl := next_unique (exec_call_of_full s nnn hsp) h
    rfl
  · next hsp =>
    obtain rfl := next_unique (exec_call_of_lt s nnn (by omega)) h
    exact zext16_toNat nnn

theorem exec_ret_pc {s t : State} (h : exec .ret s = .next t) :
    if s.sp.val = 0 then t.pc = s.pc else ∃ j : Fin 16, j.val + 1 = s.sp.val ∧ t.pc = s.stk[j] + 2 := by
  split
  · next hsp =>
    obtain rfl := next_unique (exec_ret_of_empty s hsp) h
    rfl
  · next hsp =>
    obtain rfl := next_unique (exec_ret_of_pos s (Nat.pos_of_ne_zero hsp)) h
    exact ⟨⟨s.sp.val - 1, by omega⟩, Nat.succ_pred_eq_of_ne_zero hsp, rfl⟩

/-- Settles O47, by the instructions in the order of the classes. -/
theorem everyInstructionMovesThePcByItsClass : Obligations.EveryInstructionMovesThePcByItsClass := by
  intro i s t h
  cases i with
  | jp nnn =>
    obtain rfl := next_unique (exec_jp s nnn) h
    exact zext16_toNat nnn
  | jpV0 nnn =>
    obtain rfl := next_unique (exec_jpV0 s nnn) h
    exact offset_toNat nnn _
  | call nnn => exact exec_call_pc h
  | ret => exact exec_ret_pc h
  | seImm | sneImm | seReg | sneReg =>
    cases h
    exact skipIf_pc _ s
  | skp | sknp =>
    cases h
    exact skipIf_checkKey_pc _ _ s
  | sys | cls | ldImm | addImm | ldReg | orReg | andReg | xorReg | addReg | subReg | shrReg | subnReg | shlReg | ldI | rnd
    | ldVxDt | ldVxK | ldDtVx | ldStVx | addI | ldF =>
    cases h
    rfl
  | drw x y n =>
    obtain ⟨u, hu, hf, -⟩ := exec_drw s x y n
    obtain rfl := next_unique hu h
    exact congrArg (· + 2) hf.pc
  | ldB x =>
    obtain rfl := next_unique (exec_ldB s x) h
    simp
  | ldMemVx x =>
    obtain rfl := next_unique (exec_ldMemVx s x) h
    obtain ⟨-, -, hpc, -⟩ := storeRegs_fields s s (x.val + 1)
    exact congrArg (· + 2) hpc
  | ldVxMem x =>
    obtain rfl := next_unique (exec_ldVxMem s x) h
    obtain ⟨-, -, hpc, -⟩ := loadRegs_fields s (x.val + 1)
    exact congrArg (· + 2) hpc

end Sys2Proof.Machine
end

section
/-! The stack, memory and the host's operations composed: CALL then RET (41_control_flow.md), the BCD and bulk instructions
(43_memory_index.md), LOAD (70_reset_and_hazards.md R124), TICK (60_exceptions.md R114). -/

namespace Sys2Proof.Machine

theorem topOfStack_push (w : Word) (s : State) (h : s.sp.val < 16) : topOfStack (push w s h) (Nat.succ_pos _) = w :=
  Vector.getElem_set_self h

/-- Settles O28: RET pops the address CALL pushed. -/
theorem callThenReturnContinuesAfterTheCall : Obligations.CallThenReturnContinuesAfterTheCall := by
  intro s t u nnn pc hsp ht hu
  obtain rfl := next_unique (exec_call_of_lt s nnn hsp) ht
  obtain rfl := next_unique (exec_ret_of_pos _ (Nat.succ_pos _)) hu
  exact ⟨congrArg (· + 2) (topOfStack_push s.pc s hsp), rfl, fun j hj => push_slot_of_ne s.pc hsp hj⟩

theorem hundreds_toNat (a : Byte) : (hundreds a).toNat = a.toNat / 100 := BitVec.toNat_udiv

theorem tens_toNat (a : Byte) : (tens a).toNat = a.toNat / 10 % 10 := by
  rw [tens, BitVec.toNat_umod, BitVec.toNat_udiv]; rfl

theorem ones_toNat (a : Byte) : (ones a).toNat = a.toNat % 10 := BitVec.toNat_umod

/-- Settles O33: three stores at I, I + 1, I + 2. -/
theorem bcdStoresThreeDigits : Obligations.BcdStoresThreeDigits := by
  intro s x hs
  refine ⟨_, exec_ldB s x, fun a ha => ?_, ?_⟩
  · rw [advance_readByte, readByte_memWrite_three _ _ _ _ _ hs ha]
    simp only [apply_ite BitVec.toNat, hundreds_toNat, tens_toNat, ones_toNat]
  · obtain ⟨m, hm⟩ := memWrite_three_eq s.i.toNat (hundreds (s.reg x)) (tens (s.reg x)) (ones (s.reg x)) s
    rw [hm]
    rfl

/-- Settles O34: the byte stored at I + k is that of register k. -/
theorem bulkStoreWritesV0ToVx : Obligations.BulkStoreWritesV0ToVx := by
  intro s x hs
  have hread (a : Nat) := storeRegs_readByte (s := s) hs (x.val + 1) a
  refine ⟨_, exec_ldMemVx s x, fun k hk ha => ?_, fun a ha => ?_, ?_⟩
  · have hk' : k.val < x.val + 1 := Nat.lt_succ_of_le hk
    rw [advance_readByte, setI_readByte, hread, if_pos (by omega), Nat.add_sub_cancel_left,
      (nthReg_eq_iff k.isLt k).2 rfl]
  · rw [advance_readByte, setI_readByte, hread, if_neg]
    rintro ⟨hle, hlt, -⟩
    exact ha ⟨a - s.i.toNat, by omega⟩ (Fin.le_def.2 (by simp only; omega)) (Nat.add_sub_of_le hle).symm
  · rw [storeRegs_eq]
    rfl

/-- Settles O35: register k is read from I + k. -/
theorem bulkLoadReadsV0ToVx : Obligations.BulkLoadReadsV0ToVx := by
  intro s x
  refine ⟨_, exec_ldVxMem s x, fun k => ?_, ?_⟩
  · rw [advance_reg, setI_reg, loadRegs_reg s (by omega)]
    simp only [Nat.lt_succ_iff, Fin.le_def]
  · rw [loadRegs_eq]
    rfl

/-- Settles O36, from what the store writes and what the load reads. -/
theorem bulkLoadUndoesBulkStore : Obligations.BulkLoadUndoesBulkStore := by
  intro s t u x v' hs hin ht hu k
  obtain ⟨t', ht', hstored, -, hrest⟩ := bulkStoreWritesV0ToVx s x hs
  obtain rfl := next_unique ht' ht
  obtain ⟨u', hu', hloaded, -⟩ := bulkLoadReadsV0ToVx { t' with v := v' } x
  obtain rfl := next_unique hu' hu
  have hi : t'.i = s.i := (congrArg State.i hrest :)
  rw [hloaded k]
  split
  · next hk =>
    have hkx : k.val ≤ x.val := hk
    rw [← hstored k hk (by omega), ← hi]
    rfl
  · rfl

/-- Settles O49, by the bound on the program's length. -/
theorem loadCopiesTheProgram : Obligations.LoadCopiesTheProgram := by
  intro s bytes hs
  refine ⟨fun hlen => ⟨_, perform_load_of_le s hlen, fun a => ?_, rfl⟩, perform_load_of_lt s⟩
  by_cases ha : a < 4096
  · rw [readByte_of_lt _ ha, readByte_of_lt _ ha]
    exact read_writeBytes bytes a (by omega) hs
  · rw [readByte_of_le _ (by omega), readByte_of_le _ (by omega), if_neg (by omega)]

theorem countDown_toNat (t : Byte) : (countDown t).toNat = t.toNat - 1 := by
  unfold countDown
  split
  · next h => simp [h]
  · bv_omega

/-- Settles O44, by induction on the number of TICKs. -/
theorem ticksCountDownToZero : Obligations.TicksCountDownToZero := by
  intro n
  induction n with
  | zero => exact fun s => ⟨rfl, rfl, rfl⟩
  | succ n ih =>
    intro s
    obtain ⟨hdt, hst, hrest⟩ := ih (tick s)
    refine ⟨?_, ?_, ?_⟩
    · show (ticks n (tick s)).dt.toNat = _
      rw [hdt, tick, countDown_toNat]
      omega
    · show (ticks n (tick s)).st.toNat = _
      rw [hst, tick, countDown_toNat]
      omega
    · exact congrArg (fun u : State => { u with dt := s.dt, st := s.st }) hrest

end Sys2Proof.Machine
end

section
/-! DRW (44_display.md R97): one draw and two equal draws. -/

namespace Sys2Proof.Machine

/-- A draw's frame in one equation. -/
theorem Flips.rest {P : Fin 64 → Fin 32 → Prop} {s t : State} (h : Flips P s t) :
    { t with fb := s.fb, v := s.v } = { s with conds := t.conds } := by
  rw [h.mem, h.i, h.pc, h.sp, h.stk, h.dt, h.st, h.key, h.rdraw, h.run, h.draws]

/-- Settles O39. VF is cleared before the sprite is drawn, so a draw without a collision leaves it 0. -/
theorem drawXorsTheSpriteAndReportsCollision : Obligations.DrawXorsTheSpriteAndReportsCollision := by
  intro s x y n
  obtain ⟨u, hu, hf, hc⟩ := exec_drw s x y n
  refine ⟨_, hu, hf.pixel, hf.collide, fun h => (hf.clean h).trans (setReg_reg_self s vf 0),
    fun r hr => (hf.regs r hr).trans (setReg_reg_of_ne 0 hr), ?_⟩
  rw [← hc]
  exact congrArg (fun w : State => advance (raiseRedraw { w with v := s.v })) hf.rest

theorem spriteBit_congr {s t : State} {x y : RegIx} (n : Rows) (hx : t.reg x = s.reg x) (hy : t.reg y = s.reg y)
    (hi : t.i = s.i) (hmem : t.mem = s.mem) (px : Fin 64) (py : Fin 32) :
    SpriteBit t x y n px py ↔ SpriteBit s x y n px py := by
  simp only [SpriteBit, State.readByte, hx, hy, hi, hmem]

/-- Settles O40: the second draw flips the pixels the first one flipped. It reads the same sprite, since a draw writes neither
memory, I nor a register but VF. -/
theorem drawingTwiceRestoresTheScreen : Obligations.DrawingTwiceRestoresTheScreen := by
  intro s t u x y n hx hy ht hu
  obtain ⟨t₁, ht₁, h₁, -⟩ := exec_drw s x y n
  obtain rfl := next_unique ht₁ ht
  obtain ⟨u₁, hu₁, h₂, -⟩ := exec_drw (advance (raiseRedraw t₁)) x y n
  obtain rfl := next_unique hu₁ hu
  have hreg (r : RegIx) (hr : r ≠ vf) : t₁.reg r = s.reg r := (h₁.regs r hr).trans (setReg_reg_of_ne 0 hr)
  have hsprite := spriteBit_congr (t := advance (raiseRedraw t₁)) n (hreg x hx) (hreg y hy) h₁.i h₁.mem
  replace h₂ := h₂.congr hsprite
  refine ⟨fun px py => ?_, fun hvf => ?_, fun ⟨px, py, hb, hp⟩ => h₂.collide ⟨px, py, ?_, hb⟩⟩
  · by_cases hb : SpriteBit s x y n px py
    · calc u₁.pixel px py = !t₁.pixel px py := h₂.inside hb
        _ = !!s.pixel px py := congrArg (!·) (h₁.inside hb)
        _ = s.pixel px py := Bool.not_not _
    · exact (h₂.outside hb).trans (h₁.outside hb)
  · by_contra hnone
    have hcleared (px : Fin 64) (py : Fin 32) (hb : SpriteBit s x y n px py) : t₁.pixel px py = false := by
      have hset : s.pixel px py = true := by simpa using fun hp => hnone ⟨px, py, hb, hp⟩
      rw [h₁.inside hb, setReg_pixel, hset, Bool.not_true]
    have hzero : u₁.reg vf = 0 := (h₂.clean hcleared).trans (setReg_reg_self _ vf 0)
    exact absurd (hzero.symm.trans hvf) (by decide)
  · show t₁.pixel px py = true
    rw [h₁.inside hb, setReg_pixel, hp, Bool.not_false]

end Sys2Proof.Machine
end

section
/-! The instructions one at a time (41_control_flow.md, 42_register_alu.md, 43_memory_index.md, 44_display.md, 45_input.md,
46_timers.md): each is its equation and what its shared operation does. -/

namespace Sys2Proof.Machine

/-! ## Register and ALU -/

/-- What one register write and the generic advance do. -/
theorem advance_setReg_spec {i : Instr} {s : State} {x : RegIx} {b : Byte} (h : exec i s = .next (advance (s.setReg x b))) :
    ∃ t, exec i s = .next t ∧ (∀ r, t.reg r = if r = x then b else s.reg r) ∧ t.pc = s.pc + 2 ∧
      SameOutsideRegisters s t :=
  ⟨_, h, fun r => setReg_reg s x r b, rfl, sameOutsideRegisters_advance_setReg s x b⟩

/-- What a flag write, a register write and the generic advance do. -/
theorem advance_writeFlagAndResult_spec {i : Instr} {s : State} {x : RegIx} {flag result : Byte}
    (h : exec i s = .next (advance (writeFlagAndResult false x flag result s))) :
    ∃ t, exec i s = .next t ∧
      (∀ r, (t.reg r).toNat = if r = x then result.toNat else if r = vf then flag.toNat else (s.reg r).toNat) ∧
      t.pc = s.pc + 2 ∧ SameOutsideRegisters s t := by
  refine ⟨_, h, fun r => ?_, rfl, sameOutsideRegisters_with_v_pc s _ _⟩
  rw [advance_reg, writeFlagAndResult_reg, apply_ite BitVec.toNat, apply_ite BitVec.toNat]

/-- Settles O18. -/
theorem addImmediateWrapsWithoutFlag : Obligations.AddImmediateWrapsWithoutFlag := by
  intro s x nn
  obtain ⟨t, ht, hregs, hrest⟩ := advance_setReg_spec (exec_addImm s x nn)
  refine ⟨t, ht, fun r => ?_, hrest⟩
  rw [hregs, apply_ite BitVec.toNat, BitVec.toNat_add]

/-- Settles O19: the four share their shape, whatever the result. -/
theorem copyAndLogicWriteOnlyTheDestination : Obligations.CopyAndLogicWriteOnlyTheDestination := by
  intro s x y i result h
  have hexec : exec i s = .next (advance (s.setReg x result)) := by
    simp only [List.mem_cons, Prod.mk.injEq, List.not_mem_nil, or_false] at h
    obtain ⟨rfl, rfl⟩ | ⟨rfl, rfl⟩ | ⟨rfl, rfl⟩ | ⟨rfl, rfl⟩ := h
    · exact exec_ldReg s x y
    · exact exec_orReg s x y
    · exact exec_andReg s x y
    · exact exec_xorReg s x y
  exact advance_setReg_spec hexec

theorem carryFlag_toNat (a b : Byte) : (carryFlag a b).toNat = if a.toNat + b.toNat > 255 then 1 else 0 := by
  simp [carryFlag, flagByte_toNat]

theorem noBorrowFlag_toNat (a b : Byte) : (noBorrowFlag a b).toNat = if a.toNat ≥ b.toNat then 1 else 0 := by
  simp [noBorrowFlag, flagByte_toNat]

theorem shiftedOutRight_toNat (a : Byte) : (shiftedOutRight a).toNat = a.toNat % 2 := by
  rw [shiftedOutRight, BitVec.toNat_and]
  exact Nat.and_one_is_mod _

theorem shiftedOutLeft_toNat (a : Byte) : (shiftedOutLeft a).toNat = a.toNat / 128 := by
  have := a.isLt
  rw [shiftedOutLeft, BitVec.toNat_and, BitVec.toNat_ushiftRight, Nat.shiftRight_eq_div_pow]
  show a.toNat / 128 &&& 1 = _
  rw [Nat.and_one_is_mod]
  omega

/-- Settles O20. -/
theorem addSetsCarryThenSum : Obligations.AddSetsCarryThenSum := by
  intro s x y
  obtain ⟨t, ht, hregs, hrest⟩ := advance_writeFlagAndResult_spec (exec_addReg s x y)
  exact ⟨t, ht, fun r => by rw [hregs, BitVec.toNat_add, carryFlag_toNat], hrest⟩

theorem byte_sub_toNat (a b : Byte) : (a - b).toNat = (a.toNat + 256 - b.toNat) % 256 := by
  have := b.isLt
  rw [BitVec.toNat_sub]
  omega

/-- SUB and SUBN are one subtraction, of the operands in either order. -/
theorem subtract_spec {i : Instr} {s : State} {x : RegIx} {a b : Byte}
    (h : exec i s = .next (advance (writeFlagAndResult false x (noBorrowFlag a b) (a - b) s))) :
    ∃ t, exec i s = .next t ∧
      (∀ r, (t.reg r).toNat = if r = x then (a.toNat + 256 - b.toNat) % 256
        else if r = vf then (if a.toNat ≥ b.toNat then 1 else 0) else (s.reg r).toNat) ∧
      t.pc = s.pc + 2 ∧ SameOutsideRegisters s t := by
  obtain ⟨t, ht, hregs, hrest⟩ := advance_writeFlagAndResult_spec h
  exact ⟨t, ht, fun r => by rw [hregs, byte_sub_toNat, noBorrowFlag_toNat], hrest⟩

/-- Settles O21. -/
theorem subtractSetsNoBorrowThenDifference : Obligations.SubtractSetsNoBorrowThenDifference := by
  intro s x y i a b h
  simp only [List.mem_cons, Prod.mk.injEq, List.not_mem_nil, or_false] at h
  obtain ⟨rfl, rfl, rfl⟩ | ⟨rfl, rfl, rfl⟩ := h
  · exact subtract_spec (exec_subReg s x y)
  · exact subtract_spec (exec_subnReg s x y)

/-- Settles O22. -/
theorem shiftsCaptureTheBitShiftedOut : Obligations.ShiftsCaptureTheBitShiftedOut := by
  intro s x y i result flag h
  simp only [List.mem_cons, Prod.mk.injEq, List.not_mem_nil, or_false] at h
  obtain ⟨rfl, rfl, rfl⟩ | ⟨rfl, rfl, rfl⟩ := h
  · obtain ⟨t, ht, hregs, hrest⟩ := advance_writeFlagAndResult_spec (exec_shrReg s x y)
    refine ⟨t, ht, fun r => ?_, hrest⟩
    rw [hregs, shiftedOutRight_toNat, BitVec.toNat_ushiftRight, Nat.shiftRight_one]
  · obtain ⟨t, ht, hregs, hrest⟩ := advance_writeFlagAndResult_spec (exec_shlReg s x y)
    refine ⟨t, ht, fun r => ?_, hrest⟩
    rw [hregs, shiftedOutLeft_toNat, BitVec.toNat_shiftLeft, Nat.shiftLeft_eq]

/-- Settles O23. -/
theorem randomIsAFreeByteUnderTheMask : Obligations.RandomIsAFreeByteUnderTheMask := by
  intro s x nn
  have hx : ({ s with draws := s.draws + 1 }.setReg x (Config.rand s.draws &&& nn)).reg x = Config.rand s.draws &&& nn :=
    setReg_reg_self _ x _
  refine ⟨_, exec_rnd s x nn, hx, fun r hr => setReg_reg_of_ne _ hr, ?_, rfl, ?_, rfl⟩
  · rintro rfl
    exact hx.trans BitVec.and_zero
  · exact { sameOutsideRegisters_advance_setReg s x (Config.rand s.draws &&& nn) with }

/-! ## Control flow -/

/-- Settles O24. -/
theorem sysOnlyAdvances : Obligations.SysOnlyAdvances := exec_sys

/-- Settles O25. -/
theorem jumpsSetOnlyThePc : Obligations.JumpsSetOnlyThePc := by
  intro s nnn i target h
  simp only [List.mem_cons, Prod.mk.injEq, List.not_mem_nil, or_false] at h
  obtain ⟨rfl, rfl⟩ | ⟨rfl, rfl⟩ := h
  · exact ⟨_, exec_jp s nnn, zext16_toNat nnn, rfl⟩
  · exact ⟨_, exec_jpV0 s nnn, offset_toNat nnn _, rfl⟩

/-- Settles O26, by the two sides of the full stack. -/
theorem callPushesItsOwnAddress : Obligations.CallPushesItsOwnAddress := by
  intro s nnn
  refine ⟨fun h => ⟨_, exec_call_of_lt s nnn h, zext16_toNat nnn, rfl, fun j => ?_, rfl⟩, exec_call_of_full s nnn⟩
  split
  · next hj => simp [hj]
  · next hj => exact push_slot_of_ne s.pc h hj

/-- Settles O27, by the two sides of the empty stack. -/
theorem returnGoesPastTheCall : Obligations.ReturnGoesPastTheCall := by
  intro s
  refine ⟨fun j hj => ?_, exec_ret_of_empty s⟩
  have hpos : 0 < s.sp.val := by omega
  have htop : topOfStack s hpos = s.stk[j] := by simp [topOfStack, hj]
  refine ⟨_, exec_ret_of_pos s hpos, ?_, ?_, rfl⟩
  · rw [jumpTo_pc, htop, BitVec.toNat_add]; rfl
  · simp [hj]

/-- A register skip, whose test `b` decides the condition `c`. -/
theorem exec_skip_spec {i : Instr} {s : State} {b : Bool} {c : Prop} (h : exec i s = .next (skipIf b s))
    (hc : b = true ↔ c) :
    ∃ t, exec i s = .next t ∧ (c → t.pc = s.pc + 4) ∧ (¬ c → t.pc = s.pc + 2) ∧ { t with pc := s.pc } = s := by
  refine ⟨_, h, fun hp => ?_, fun hn => ?_, ?_⟩
  · rw [skipIf_eq, if_pos (hc.2 hp)]
  · rw [skipIf_eq, if_neg (mt hc.1 hn)]
  · rw [skipIf_eq]

/-- Settles O31. -/
theorem registerSkipsMoveOnlyThePc : Obligations.RegisterSkipsMoveOnlyThePc := by
  rintro s x y nn i c (⟨rfl, rfl⟩ | ⟨rfl, rfl⟩ | ⟨rfl, rfl⟩ | ⟨rfl, rfl⟩)
  · exact exec_skip_spec (exec_seImm s x nn) beq_iff_eq
  · exact exec_skip_spec (exec_sneImm s x nn) bne_iff_ne
  · exact exec_skip_spec (exec_seReg s x y) beq_iff_eq
  · exact exec_skip_spec (exec_sneReg s x y) bne_iff_ne

/-! ## Index -/

theorem indexOverflowFlag_toNat (i : Word) (a : Byte) :
    (indexOverflowFlag 12 i a).toNat = if i.toNat + a.toNat > 0xFFF then 1 else 0 := by
  simp only [indexOverflowFlag, flagByte_toNat, decide_eq_true_eq]
  rfl

theorem glyphAddress_toNat (a : Byte) : (glyphAddress a).toNat = 5 * (a.toNat % 16) := by
  have hand : (a &&& 0x0F#8).toNat = a.toNat % 16 := by
    rw [BitVec.toNat_and]
    exact Nat.and_two_pow_sub_one_eq_mod a.toNat 4
  rw [glyphAddress, hand, BitVec.toNat_ofNat]
  simp only [Config.fontBase, Config.glyphBytes]
  omega

/-- Settles O32. -/
theorem indexInstructionsSetI : Obligations.IndexInstructionsSetI := by
  intro s x nnn
  refine ⟨⟨_, exec_ldI s nnn, zext16_toNat nnn, rfl⟩, ⟨_, exec_ldF s x, glyphAddress_toNat _, rfl⟩,
    ⟨_, exec_addI s x, ?_, fun r => ?_, rfl⟩⟩
  · have := (s.reg x).isLt
    show (s.i + (s.reg x).setWidth 16).toNat = _
    rw [BitVec.toNat_add, BitVec.toNat_setWidth]
    omega
  · rw [advance_reg, setI_reg, setReg_reg, apply_ite BitVec.toNat, indexOverflowFlag_toNat]

/-! ## Display, input, timers -/

theorem clear_pixel (s : State) (px : Fin 64) (py : Fin 32) : { s with fb := Framebuffer.clear }.pixel px py = false := by
  simp [State.pixel, Framebuffer.clear]

/-- Settles O38. -/
theorem clearScreenClearsEveryPixel : Obligations.ClearScreenClearsEveryPixel :=
  fun s => ⟨_, exec_cls s, clear_pixel s, rfl⟩

/-- A key skip on the key numbered `k`. -/
theorem exec_key_skip_spec {i : Instr} {s : State} {k : Nat} {c : Bool} (h : exec i s = .next (skipIf c (checkKey k s))) :
    ∃ t, exec i s = .next t ∧ t.pc = (if c then s.pc + 4 else s.pc + 2) ∧
      { t with pc := s.pc } = { s with conds := s.conds ++ if k < 16 then [] else [.outOfRangeAccess (.key k)] } := by
  rw [skipIf_checkKey_eq] at h
  exact ⟨_, h, rfl, rfl⟩

/-- Settles O41. -/
theorem keySkipsReadTheKeypad : Obligations.KeySkipsReadTheKeypad := by
  intro s x i skip h
  refine ⟨fun k => keyPressed_of_le s, ?_⟩
  simp only [List.mem_cons, Prod.mk.injEq, List.not_mem_nil, or_false] at h
  obtain ⟨rfl, rfl⟩ | ⟨rfl, rfl⟩ := h
  · exact exec_key_skip_spec (exec_skp s x)
  · exact exec_key_skip_spec (exec_sknp s x)

/-- Settles O42. -/
theorem keyWaitSuspendsAndAdvances : Obligations.KeyWaitSuspendsAndAdvances := exec_ldVxK

/-- Settles O43. -/
theorem timerMovesCopyOneByte : Obligations.TimerMovesCopyOneByte :=
  fun s x => ⟨advance_setReg_spec (exec_ldVxDt s x), exec_ldDtVx s x, exec_ldStVx s x⟩

end Sys2Proof.Machine
end

section
/-! Reset, the font and the host's other operations (70_reset_and_hazards.md section 1; 60_exceptions.md sections 6 and 7). -/

namespace Sys2Proof.Machine

theorem resetByte_eq (a : Nat) : resetByte a = font.getD a 0 := if_pos (Nat.zero_le a)

/-- After reset a byte is the font's, and 0 past its end (20_memory.md R35, R36). -/
theorem reset_readByte (a : Nat) : State.reset.readByte a = font.getD a 0 := by
  by_cases h : a < 4096
  · rw [readByte_of_lt _ h]
    exact resetByte_eq a
  · have hlen : font.length ≤ a := Nat.le_trans (by decide) (Nat.le_of_not_lt h)
    rw [readByte_of_le _ (Nat.le_of_not_lt h), List.getD_eq_default _ _ hlen]

/-- Settles O48. -/
theorem resetRecreatesTheMachine : Obligations.ResetRecreatesTheMachine := perform_reset

/-- Settles O5: memory by the font, the register file, stack, screen and keypad entry by entry, the rest by definition. -/
theorem resetLeavesTheStatedValues : Obligations.ResetLeavesTheStatedValues := by
  refine ⟨reset_readByte, fun x => ?_, rfl, rfl, rfl, fun j => ?_, clear_pixel State.reset, rfl, rfl, fun k => ?_, rfl, rfl⟩
  · exact Vector.getElem_replicate x.isLt
  · exact Vector.getElem_replicate j.isLt
  · exact (lowestPressed_none State.reset).1 rfl k

/-- Settles O37: the glyph of digit d is at 5 * d. -/
theorem glyphAddressPointsIntoTheFont : Obligations.GlyphAddressPointsIntoTheFont := by
  intro d r
  have hd : (BitVec.ofNat 8 d.val).toNat % 16 = d.val := by
    rw [BitVec.toNat_ofNat]
    omega
  rw [glyphAddress_toNat, hd, reset_readByte]

theorem keyPressed_set (s : State) {k : Nat} (b : Bool) (h : k < 16) (j : Nat) :
    { s with key := s.key.set k b h }.keyPressed j = if j = k then b else s.keyPressed j := by
  simp only [State.keyPressed, Vector.getElem?_set, eq_comm (a := j)]
  split
  · rfl
  · rfl

/-- Settles O50, by the two ranges of the key number. -/
theorem setKeyWritesOneKey : Obligations.SetKeyWritesOneKey :=
  fun s _ b => ⟨fun h => ⟨_, perform_setKey_of_lt s b h, keyPressed_set s b h, rfl⟩, perform_setKey_of_le s b⟩

theorem peekReg_of_lt (s : State) (i : RegIx) : peekReg i.val s = (s.reg i, []) := dif_pos i.isLt

theorem peekReg_of_le (s : State) {i : Nat} (h : 16 ≤ i) : peekReg i s = (0, [.outOfRangeAccess (.register i)]) :=
  dif_neg (Nat.not_lt.2 h)

theorem peekMem_eq (s : State) (a : Nat) : peekMem a s = (s.readByte a, outOfRange [a]) := by
  unfold peekMem
  split
  · next h => rw [outOfRange_of_lt h]
  · next h => rw [outOfRange_of_le (Nat.le_of_not_lt h)]

theorem peekPixel_of_lt (s : State) (px : Fin 64) (py : Fin 32) :
    peekPixel px.val py.val s = (if s.pixel px py then 1 else 0, []) := by
  rw [peekPixel, dif_pos ⟨px.isLt, py.isLt⟩]
  cases s.pixel px py <;> rfl

theorem peekPixel_of_le (s : State) {px py : Nat} (h : 64 ≤ px ∨ 32 ≤ py) :
    peekPixel px py s = (0, [.outOfRangeAccess (.pixel px py)]) :=
  dif_neg (by simp only [Config.fbWidth, Config.fbHeight]; omega)

/-- Settles O51, by each read on the two sides of its bound. -/
theorem peeksReadAndNeverMutate : Obligations.PeeksReadAndNeverMutate :=
  fun s => ⟨fun p => perform_peek p s, fun _ => rfl, fun _ => rfl, fun _ _ => rfl, rfl, rfl, rfl, rfl, rfl, rfl, rfl,
    peekReg_of_lt s, fun _ => peekReg_of_le s, peekMem_eq s, fun _ => readByte_of_le s, peekPixel_of_lt s,
    fun _ _ => peekPixel_of_le s⟩

end Sys2Proof.Machine
end
